-- ==== Sys2Proof/Word.lean ====
section
/-! DEFINITION. The machine's word types and its one two-valued control type. -/

namespace Sys2Proof

/-- One item of the MIDI stream, and one note-table cell (R55, R57). -/
abbrev Byte := BitVec 8

/-- A command word (R72). -/
abbrev Word := BitVec 16

/-- PHASE, the decoder's control state (R24): which data byte of the message it awaits. -/
inductive Phase where
  | awaitD1
  | awaitD2
deriving DecidableEq, Repr

end Sys2Proof
end

