-- ==== Sys2Proof/Syntax.lean ====
section
/-! DEFINITION. The instruction set: one constructor per row of spec/opcode_table.json, in the table's order. -/

namespace Sys2Proof

/-- A command, by its opcode-table row (R85), with the row's operand fields. -/
inductive Instr where
  /-- NOP (R189). -/
  | nop
  /-- BYTE.DATA1: a data byte in phase AWAIT_D1 (R109). -/
  | data1 (d : BitVec 7)
  /-- BYTE.DATA2: a data byte in phase AWAIT_D2 (R110). -/
  | data2 (vel : BitVec 7)
  /-- BYTE.NOTE_OFF: status 0x80–0x8F, channel nibble `n` (R102). -/
  | noteOff (n : BitVec 4)
  /-- BYTE.NOTE_ON: status 0x90–0x9F, channel nibble `n` (R103). -/
  | noteOn (n : BitVec 4)
  /-- BYTE.STATUS_A: status 0xA0–0xAF, channel nibble `n` (R104). -/
  | statusA (n : BitVec 4)
  /-- BYTE.STATUS_B: status 0xB0–0xBF, channel nibble `n` (R105). -/
  | statusB (n : BitVec 4)
  /-- BYTE.STATUS_C: status 0xC0–0xCF, channel nibble `n` (R106). -/
  | statusC (n : BitVec 4)
  /-- BYTE.STATUS_D: status 0xD0–0xDF, channel nibble `n` (R107). -/
  | statusD (n : BitVec 4)
  /-- BYTE.STATUS_E: status 0xE0–0xEF, channel nibble `n` (R108). -/
  | statusE (n : BitVec 4)
  /-- BYTE.SYS_F0 (R120). -/
  | sysF0
  /-- BYTE.SYS_F1 (R121). -/
  | sysF1
  /-- BYTE.SYS_F2 (R122). -/
  | sysF2
  /-- BYTE.SYS_F3 (R123). -/
  | sysF3
  /-- BYTE.SYS_F4 (R124). -/
  | sysF4
  /-- BYTE.SYS_F5 (R125). -/
  | sysF5
  /-- BYTE.SYS_F6 (R126). -/
  | sysF6
  /-- BYTE.SYS_F7 (R127). -/
  | sysF7
  /-- BYTE.CLOCK: the timing clock 0xF8 (R183). -/
  | clock
  /-- BYTE.SYS_F9 (R129). -/
  | sysF9
  /-- BYTE.SYS_FA (R130). -/
  | sysFA
  /-- BYTE.SYS_FB (R131). -/
  | sysFB
  /-- BYTE.SYS_FC (R132). -/
  | sysFC
  /-- BYTE.SYS_FD (R133). -/
  | sysFD
  /-- BYTE.SYS_FE (R134). -/
  | sysFE
  /-- BYTE.SYS_FF (R135). -/
  | sysFF
  /-- SWEEP (R154). -/
  | sweep
  /-- POLL (R187). -/
  | poll
  /-- READ_ACTIVE: `row` = channel − 1, pitch `p` (R155). -/
  | readActive (row : BitVec 4) (p : BitVec 7)
  /-- READ_ACCUM: `row` = channel − 1, pitch `p` (R156). -/
  | readAccum (row : BitVec 4) (p : BitVec 7)
deriving DecidableEq, Repr

end Sys2Proof
end

