-- ==== Sys2Proof/WellFormed.lean ====
section
/-! DEFINITION. When an instruction is admitted: the "condition" column of the opcode table (R85). The operand fields are
bit vectors of the widths the encoding gives them, so no operand can be out of range; what remains to check is the condition
a row puts on PHASE and on HAS_SWEEP. -/

namespace Sys2Proof

/-- The row's condition holds in phase `ph` on a block with `hasSweep` (R85: PHASE = AWAIT_D1, PHASE = AWAIT_D2,
HAS_SWEEP = true; every other row is unconditional). -/
def Instr.wellFormed (ph : Phase) (hasSweep : Bool) : Instr → Bool
  | .nop => true
  | .data1 _ => decide (ph = .awaitD1)
  | .data2 _ => decide (ph = .awaitD2)
  | .noteOff _ => true
  | .noteOn _ => true
  | .statusA _ => true
  | .statusB _ => true
  | .statusC _ => true
  | .statusD _ => true
  | .statusE _ => true
  | .sysF0 => true
  | .sysF1 => true
  | .sysF2 => true
  | .sysF3 => true
  | .sysF4 => true
  | .sysF5 => true
  | .sysF6 => true
  | .sysF7 => true
  | .clock => true
  | .sysF9 => true
  | .sysFA => true
  | .sysFB => true
  | .sysFC => true
  | .sysFD => true
  | .sysFE => true
  | .sysFF => true
  | .sweep => hasSweep
  | .poll => true
  | .readActive _ _ => true
  | .readAccum _ _ => true

end Sys2Proof
end

