-- ==== Sys2Proof/Decode.lean ====
section
/-! DEFINITION. The command-word decoder (R72 to R85, total on every 16-bit word, rejecting by name), and after it the
encoder and the opcode table of R85. A data byte's row depends on PHASE (R79, R85), so PHASE and HAS_SWEEP are arguments. -/

namespace Sys2Proof

/-- Why a command word is reserved (R78). -/
inductive Reject where
  /-- cmd is 0b110 or 0b111. -/
  | reservedCommand
  /-- A "must be 0" field of R77 is not 0. -/
  | reservedOperand
  /-- cmd is SWEEP and HAS_SWEEP = false (R12). -/
  | sweepAbsent
deriving DecidableEq, Repr

/-! ### Fields of a word -/

/-- `w[15:13]` (R72). -/
def cmdOf (w : Word) : BitVec 3 := w.extractLsb' 13 3

/-- `w[12:0]` (R72). -/
def operandOf (w : Word) : BitVec 13 := w.extractLsb' 0 13

/-- The stream byte of a BYTE command, `operand[7:0]` (R77). -/
def byteOf (w : Word) : Byte := w.extractLsb' 0 8

/-- `operand[10:7]` of a READ command (R77). -/
def rowField (w : Word) : BitVec 4 := w.extractLsb' 7 4

/-- `operand[6:0]` of a READ command (R77). -/
def pitchField (w : Word) : BitVec 7 := w.extractLsb' 0 7

/-! ### The decoder -/

/-- A system byte 0xF0–0xFF by its low nibble (R79). -/
def decodeSystem (n : BitVec 4) : Instr :=
  match n.toNat with
  | 0 => .sysF0
  | 1 => .sysF1
  | 2 => .sysF2
  | 3 => .sysF3
  | 4 => .sysF4
  | 5 => .sysF5
  | 6 => .sysF6
  | 7 => .sysF7
  | 8 => .clock
  | 9 => .sysF9
  | 10 => .sysFA
  | 11 => .sysFB
  | 12 => .sysFC
  | 13 => .sysFD
  | 14 => .sysFE
  | _ => .sysFF

/-- A status byte 0x80–0xEF by `b[6:4]`, 0b000..0b110, and its channel nibble (R80, R81). -/
def decodeStatus (kind : BitVec 3) (n : BitVec 4) : Instr :=
  match kind.toNat with
  | 0 => .noteOff n
  | 1 => .noteOn n
  | 2 => .statusA n
  | 3 => .statusB n
  | 4 => .statusC n
  | 5 => .statusD n
  | _ => .statusE n

/-- The row of a stream byte (R79), in the order R100 tests the classes: 0xF0 and above first, then bit 7, then PHASE. -/
def decodeByte (ph : Phase) (b : Byte) : Instr :=
  if 0xF0 ≤ b.toNat then decodeSystem (b.extractLsb' 0 4)
  else if b.msb then decodeStatus (b.extractLsb' 4 3) (b.extractLsb' 0 4)
  else
    match ph with
    | .awaitD1 => .data1 (b.extractLsb' 0 7)
    | .awaitD2 => .data2 (b.extractLsb' 0 7)

/-- `i`, unless the word's "must be 0" field is not 0 (R77, R78). -/
def mustBeZero (zeroField : Bool) (i : Instr) : Except Reject Instr :=
  if zeroField then .ok i else .error .reservedOperand

/-- The opcode-table row of a command word in phase `ph`, or the reason it is reserved (R73, R77, R78, R85). -/
def decode (ph : Phase) (hasSweep : Bool) (w : Word) : Except Reject Instr :=
  match (cmdOf w).toNat with
  | 0 => mustBeZero (operandOf w == 0) .nop
  | 1 => mustBeZero (w.extractLsb' 8 5 == 0) (decodeByte ph (byteOf w))
  | 2 =>
    if operandOf w != 0 then .error .reservedOperand
    else if hasSweep then .ok .sweep else .error .sweepAbsent
  | 3 => mustBeZero (operandOf w == 0) .poll
  | 4 => mustBeZero (w.extractLsb' 11 2 == 0) (.readActive (rowField w) (pitchField w))
  | 5 => mustBeZero (w.extractLsb' 11 2 == 0) (.readAccum (rowField w) (pitchField w))
  | _ => .error .reservedCommand

/-! ### The encoder -/

/-- A word from its command code and operand (R72). -/
def commandWord (cmd : BitVec 3) (operand : BitVec 13) : Word := cmd ++ operand

/-- The BYTE command that carries stream byte `b` (R77, R87: 0x2000 | b). -/
def byteWord (b : Byte) : Word := commandWord 0b001#3 (0#5 ++ b)

/-- A READ command's operand (R77). -/
def readOperand (row : BitVec 4) (p : BitVec 7) : BitVec 13 := 0#2 ++ (row ++ p)

/-- The word of an instruction (R85). -/
def encode : Instr → Word
  | .nop => commandWord 0b000#3 0#13
  | .data1 d => byteWord (0#1 ++ d)
  | .data2 vel => byteWord (0#1 ++ vel)
  | .noteOff n => byteWord (0x8#4 ++ n)
  | .noteOn n => byteWord (0x9#4 ++ n)
  | .statusA n => byteWord (0xA#4 ++ n)
  | .statusB n => byteWord (0xB#4 ++ n)
  | .statusC n => byteWord (0xC#4 ++ n)
  | .statusD n => byteWord (0xD#4 ++ n)
  | .statusE n => byteWord (0xE#4 ++ n)
  | .sysF0 => byteWord 0xF0#8
  | .sysF1 => byteWord 0xF1#8
  | .sysF2 => byteWord 0xF2#8
  | .sysF3 => byteWord 0xF3#8
  | .sysF4 => byteWord 0xF4#8
  | .sysF5 => byteWord 0xF5#8
  | .sysF6 => byteWord 0xF6#8
  | .sysF7 => byteWord 0xF7#8
  | .clock => byteWord 0xF8#8
  | .sysF9 => byteWord 0xF9#8
  | .sysFA => byteWord 0xFA#8
  | .sysFB => byteWord 0xFB#8
  | .sysFC => byteWord 0xFC#8
  | .sysFD => byteWord 0xFD#8
  | .sysFE => byteWord 0xFE#8
  | .sysFF => byteWord 0xFF#8
  | .sweep => commandWord 0b010#3 0#13
  | .poll => commandWord 0b011#3 0#13
  | .readActive row p => commandWord 0b100#3 (readOperand row p)
  | .readAccum row p => commandWord 0b101#3 (readOperand row p)

/-! ### The opcode table (R85) -/

/-- The mnemonic of an instruction's row, as spec/opcode_table.json spells it. -/
def Instr.mnemonic : Instr → String
  | .nop => "NOP"
  | .data1 _ => "BYTE.DATA1"
  | .data2 _ => "BYTE.DATA2"
  | .noteOff _ => "BYTE.NOTE_OFF"
  | .noteOn _ => "BYTE.NOTE_ON"
  | .statusA _ => "BYTE.STATUS_A"
  | .statusB _ => "BYTE.STATUS_B"
  | .statusC _ => "BYTE.STATUS_C"
  | .statusD _ => "BYTE.STATUS_D"
  | .statusE _ => "BYTE.STATUS_E"
  | .sysF0 => "BYTE.SYS_F0"
  | .sysF1 => "BYTE.SYS_F1"
  | .sysF2 => "BYTE.SYS_F2"
  | .sysF3 => "BYTE.SYS_F3"
  | .sysF4 => "BYTE.SYS_F4"
  | .sysF5 => "BYTE.SYS_F5"
  | .sysF6 => "BYTE.SYS_F6"
  | .sysF7 => "BYTE.SYS_F7"
  | .clock => "BYTE.CLOCK"
  | .sysF9 => "BYTE.SYS_F9"
  | .sysFA => "BYTE.SYS_FA"
  | .sysFB => "BYTE.SYS_FB"
  | .sysFC => "BYTE.SYS_FC"
  | .sysFD => "BYTE.SYS_FD"
  | .sysFE => "BYTE.SYS_FE"
  | .sysFF => "BYTE.SYS_FF"
  | .sweep => "SWEEP"
  | .poll => "POLL"
  | .readActive _ _ => "READ_ACTIVE"
  | .readAccum _ _ => "READ_ACCUM"

/-- One row of R85's table: match, mask, and the condition on PHASE and HAS_SWEEP. -/
structure OpcodeRow where
  mnemonic   : String
  pattern    : Word
  mask       : Word
  phase      : Option Phase := none
  needsSweep : Bool := false
deriving DecidableEq, Repr

/-- The rows of R85's table that are command rows. -/
def commandRows : List OpcodeRow :=
  [{ mnemonic := "NOP", pattern := 0x0000#16, mask := 0xFFFF#16 },
   { mnemonic := "SWEEP", pattern := 0x4000#16, mask := 0xFFFF#16, needsSweep := true },
   { mnemonic := "POLL", pattern := 0x6000#16, mask := 0xFFFF#16 },
   { mnemonic := "READ_ACTIVE", pattern := 0x8000#16, mask := 0xF800#16 },
   { mnemonic := "READ_ACCUM", pattern := 0xA000#16, mask := 0xF800#16 }]

/-- The rows for data bytes and voice status bytes. -/
def voiceRows : List OpcodeRow :=
  [{ mnemonic := "BYTE.DATA1", pattern := 0x2000#16, mask := 0xFF80#16, phase := some .awaitD1 },
   { mnemonic := "BYTE.DATA2", pattern := 0x2000#16, mask := 0xFF80#16, phase := some .awaitD2 },
   { mnemonic := "BYTE.NOTE_OFF", pattern := 0x2080#16, mask := 0xFFF0#16 },
   { mnemonic := "BYTE.NOTE_ON", pattern := 0x2090#16, mask := 0xFFF0#16 },
   { mnemonic := "BYTE.STATUS_A", pattern := 0x20A0#16, mask := 0xFFF0#16 },
   { mnemonic := "BYTE.STATUS_B", pattern := 0x20B0#16, mask := 0xFFF0#16 },
   { mnemonic := "BYTE.STATUS_C", pattern := 0x20C0#16, mask := 0xFFF0#16 },
   { mnemonic := "BYTE.STATUS_D", pattern := 0x20D0#16, mask := 0xFFF0#16 },
   { mnemonic := "BYTE.STATUS_E", pattern := 0x20E0#16, mask := 0xFFF0#16 }]

/-- The rows for the bytes 0xF0–0xFF. -/
def systemRows : List OpcodeRow :=
  [{ mnemonic := "BYTE.SYS_F0", pattern := 0x20F0#16, mask := 0xFFFF#16 },
   { mnemonic := "BYTE.SYS_F1", pattern := 0x20F1#16, mask := 0xFFFF#16 },
   { mnemonic := "BYTE.SYS_F2", pattern := 0x20F2#16, mask := 0xFFFF#16 },
   { mnemonic := "BYTE.SYS_F3", pattern := 0x20F3#16, mask := 0xFFFF#16 },
   { mnemonic := "BYTE.SYS_F4", pattern := 0x20F4#16, mask := 0xFFFF#16 },
   { mnemonic := "BYTE.SYS_F5", pattern := 0x20F5#16, mask := 0xFFFF#16 },
   { mnemonic := "BYTE.SYS_F6", pattern := 0x20F6#16, mask := 0xFFFF#16 },
   { mnemonic := "BYTE.SYS_F7", pattern := 0x20F7#16, mask := 0xFFFF#16 },
   { mnemonic := "BYTE.CLOCK", pattern := 0x20F8#16, mask := 0xFFFF#16 },
   { mnemonic := "BYTE.SYS_F9", pattern := 0x20F9#16, mask := 0xFFFF#16 },
   { mnemonic := "BYTE.SYS_FA", pattern := 0x20FA#16, mask := 0xFFFF#16 },
   { mnemonic := "BYTE.SYS_FB", pattern := 0x20FB#16, mask := 0xFFFF#16 },
   { mnemonic := "BYTE.SYS_FC", pattern := 0x20FC#16, mask := 0xFFFF#16 },
   { mnemonic := "BYTE.SYS_FD", pattern := 0x20FD#16, mask := 0xFFFF#16 },
   { mnemonic := "BYTE.SYS_FE", pattern := 0x20FE#16, mask := 0xFFFF#16 },
   { mnemonic := "BYTE.SYS_FF", pattern := 0x20FF#16, mask := 0xFFFF#16 }]

/-- R85's table. -/
def opcodeTable : List OpcodeRow := commandRows ++ voiceRows ++ systemRows

/-- The row covers word `w` in phase `ph` on a block with `hasSweep`. -/
def OpcodeRow.covers (ph : Phase) (hasSweep : Bool) (w : Word) (r : OpcodeRow) : Bool :=
  w &&& r.mask == r.pattern &&
    (match r.phase with
      | none => true
      | some q => decide (q = ph)) &&
    (!r.needsSweep || hasSweep)

/-! ### The host's question about one table word -/

/-- What the decoder reads from an instruction whose low `nbits` bits are `w`'s and whose other bits are 0. No command is
longer than 16 bits. The word is read as State.reset reads it, in phase AWAIT_D1 and with HAS_SWEEP = true, so that a data
byte gives BYTE.DATA1 (log entry 7). -/
def decodeTableWord (nbits w : Nat) : Option Instr :=
  if 16 < nbits then none
  else
    match decode .awaitD1 true (BitVec.ofNat 16 (w % 2 ^ nbits)) with
    | .ok i => some i
    | .error _ => none

end Sys2Proof
end

