-- ==== Sys2Proof/Config.lean ====
section
/-! DEFINITION. The two implementation parameters of `00_scope.md` (R11, R12). The values derived from them (N, THRESH)
are in Machine/Ops.lean. The spec leaves no value free, so there is no opaque constant here. -/

namespace Sys2Proof

/-- SUBDIV, by the five names of R11. A value outside R11's domain has no constructor: `boot` (Machine/Ops.lean) refuses
it before any machine exists, as R190 asks (log entry 12). -/
inductive Subdiv where
  | whole
  | half
  | quarter
  | eighth
  | sixteenth
deriving DecidableEq, Repr

/-- The parameters of a build, fixed for the whole run (R254): an argument of the block's step and no state of the block (R32,
R46). -/
structure Config where
  subdiv   : Subdiv
  hasSweep : Bool
deriving DecidableEq, Repr

end Sys2Proof
end

