-- ==== Sys2Proof/Machine/State.lean ====
section
/-! DEFINITION. The block's state (R46's record), the reasons a step can stop, and the closed system the host's interface
steps, all as plain data, with their reset values. -/

namespace Sys2Proof.Machine

/-- The two address spaces, one grid each (R50). -/
inductive Grid where
  | active
  | accum
deriving DecidableEq, Repr

/-- The source's statusKind (R76). -/
inductive EventKind where
  | noteOff
  | noteOn
  | other
deriving DecidableEq, Repr

/-- The source's VoiceEvent {channel, statusKind, pitch, velocity} (R113): transient, carried on the response port. -/
structure VoiceEvent where
  kind  : EventKind
  chan  : BitVec 5
  pitch : BitVec 7
  vel   : BitVec 7
deriving DecidableEq, Repr

/-- The decoder's per-byte result, the source's Attention (R75, R100), with the event where there is one. -/
inductive Attention where
  | none
  | event (e : VoiceEvent)
  | error
deriving DecidableEq, Repr

/-- The response of one step: the `rsp_*` ports of R70, as the bits the host sees. A field no rule sets is 0 (R74). It is
returned by the step beside the next block, and is no part of the block (R34). -/
structure Response where
  att   : BitVec 2 := 0#2
  kind  : BitVec 2 := 0#2
  chan  : BitVec 5 := 0#5
  pitch : BitVec 7 := 0#7
  vel   : BitVec 7 := 0#7
  sync  : BitVec 1 := 0#1
  data  : BitVec 8 := 0#8
deriving DecidableEq, Repr

/-- The response with no field set (R74). -/
def Response.zero : Response := {}

/-- What the host drives at one rising edge of `clk` (R70). An edge at which the block is not ready accepts nothing and is
not listed (log entry 6). -/
structure PortInput where
  rst      : Bool
  cmdValid : Bool
  cmdWord  : Word
deriving DecidableEq, Repr

/-- A grid's contents: (address, byte) pairs, addresses rising, no byte 0. An unlisted cell reads as 0, which is every
cell's reset value (R37). -/
abbrev Memory := List Host.Cell

/-- THE STATE OF THE BLOCK: R46's record, R20's nine rows, and nothing else. SUBDIV and HAS_SWEEP are arguments of the step
over it, and its response is returned (`blockStep`, Machine/BlockStep.lean). -/
structure Block where
  /-- STATUS (R21): the last status byte with its low nibble cleared; 0x00 before any. -/
  status   : BitVec 8
  /-- CHAN (R22): 1..16 after any status byte, 0 before. -/
  chan     : BitVec 5
  /-- D1 (R23): the first data byte of the message in progress. -/
  d1       : BitVec 7
  /-- PHASE (R24). -/
  phase    : Phase
  /-- C1 (R27): the first-stage counter. -/
  c1       : BitVec 2
  /-- C2 (R28): the second-stage counter. -/
  c2       : BitVec 4
  /-- SYNC_SEEN (R29): the sticky sync latch. -/
  syncSeen : Bool
  /-- ACTIVE (R30). -/
  active   : Memory
  /-- ACCUM (R31). -/
  accum    : Memory
deriving DecidableEq, Repr

/-- A step never faults (R7, R227): there is no fault reason. -/
inductive Fault where
deriving DecidableEq, Repr

/-- Why a command has no next state (R7). Every refusal is safe: nothing can be proved of a state after it. -/
inductive Refusal where
  /-- An arm of exec without a meaning. None is left: nothing raises it. Safe. -/
  | notModelled (mnemonic : String)
  /-- Raised by acceptWord: cmd is 0b110 or 0b111 (R78). Safe. -/
  | reservedCommand
  /-- Raised by acceptWord: a "must be 0" operand field is not 0 (R77, R78). Safe. -/
  | reservedOperand
  /-- Raised by acceptWord and by SWEEP's meaning: HAS_SWEEP = false (R12, R78). Safe. -/
  | sweepAbsent
  /-- Raised by the meaning of a data-byte row asked to run outside the PHASE its table row is conditioned on (R85). The
  decoder reads that word as the other data row, so no step raises it (log entry 8). Safe. -/
  | phaseCondition
  /-- Raised by boot: SUBDIV outside R11's domain (R7, R11, R190). Safe. -/
  | subdivOutsideDomain
deriving DecidableEq, Repr

/-- What the block's step returns (R46): the response and the next block, or a refusal. -/
abbrev Answer := Except Refusal (Response × Block)

/-- The block after reset: every piece of state at its reset value (R37, R250). -/
def Block.reset : Block where
  status := 0x00#8
  chan := 0#5
  d1 := 0#7
  phase := .awaitD1
  c1 := 0#2
  c2 := 0#4
  syncSeen := false
  active := []
  accum := []

/-- THE CLOSED SYSTEM THAT THE HOST'S INTERFACE STEPS. Host.Core fixes `step : State → Outcome State …`, with no argument and
no returned value beside the state, so what stands around the block has its place here: the arguments its step is given (log
entries 2 and 4) and what it last returned (log entry 1). Only `block` is state of the block. -/
structure State where
  /-- The block. -/
  block  : Block
  /-- The fixed arguments SUBDIV and HAS_SWEEP that the step hands to the block (R32); no step writes them (R254). -/
  cfg    : Config
  /-- What the last step returned, on the `rsp_*` ports; none is `rsp_valid = 0`. No step reads it (R34). -/
  rsp    : Option Response
  /-- What the host will drive, first edge first (R35). -/
  stream : List PortInput
deriving DecidableEq, Repr

/-- Right after reset, on a build with `cfg`: the block reset, no response, and nothing yet driven by the host. -/
def State.resetWith (cfg : Config) : State where
  block := Block.reset
  cfg := cfg
  rsp := none
  stream := []

/-- The machine right after reset. HAS_SWEEP = true is this hardware's (R12). SUBDIV = sixteenth is a DESIGN CHOICE (log
entry 3): the spec leaves it to the build. -/
def State.reset : State := State.resetWith { subdiv := .sixteenth, hasSweep := true }

end Sys2Proof.Machine
end

