-- ==== Sys2Proof/Machine/Operands.lean ====
section
/-! DEFINITION. The operand forms: the fields of a stream byte (R80, R82), and the flat address of a cell (R51). -/

namespace Sys2Proof.Machine

/-- `b & 0xF0` (R80). -/
def statusOf (b : Byte) : BitVec 8 := b &&& 0xF0#8

/-- `zext_5(b[3:0]) + 1`, 1..16 (R80). -/
def channelOf (b : Byte) : BitVec 5 := (b.extractLsb' 0 4).setWidth 5 + 1#5

/-- `b[6:0]`, the value of a data byte (R82). -/
def dataOf (b : Byte) : BitVec 7 := b.extractLsb' 0 7

/-- The status byte with kind `hi` = `b[7:4]` and channel nibble `n` (R80). -/
def statusByte (hi n : BitVec 4) : Byte := hi ++ n

/-- The grid row of channel `c`: c − 1, 4 bits (R51). -/
def rowOf (c : BitVec 5) : BitVec 4 := (c - 1#5).extractLsb' 0 4

/-- The flat address row ++ p (R51). -/
def cellAddr (row : BitVec 4) (p : BitVec 7) : BitVec 11 := row ++ p

end Sys2Proof.Machine
end

