-- ==== Sys2Proof/Machine/Flags.lean ====
section
/-! DEFINITION. The block has no flag register (R36). This file holds what takes its place: the intent and kind of a
message (R25, R111), the range check (R112), and the codes of the response fields (R24, R74 to R76). -/

namespace Sys2Proof.Machine

/-- INTENT(STATUS) (R25). -/
def intent (status : BitVec 8) : EventKind :=
  if status = 0x80#8 then .noteOff else if status = 0x90#8 then .noteOn else .other

/-- Resolve(vel) (R111): the three completion rules in the source's order. -/
def resolve (status : BitVec 8) (vel : BitVec 7) : EventKind :=
  if vel = 0#7 then .noteOff else if status = 0x80#8 then .noteOff else intent status

/-- RangeOK(c, p) (R112), whole: R222 asks a model to keep the pitch half although it never fails. -/
def rangeOK (c : BitVec 5) (p : BitVec 7) : Bool :=
  decide (1 ≤ c.toNat ∧ c.toNat ≤ 16 ∧ p.toNat ≤ 127)

/-- The bit of PHASE (R24). -/
def phaseCode : Phase → BitVec 1
  | .awaitD1 => 0#1
  | .awaitD2 => 1#1

/-- The code of a kind (R76). -/
def kindCode : EventKind → BitVec 2
  | .noteOff => 0b00#2
  | .noteOn => 0b01#2
  | .other => 0b10#2

/-- The response of a decoder result (R74, R75, R113): the event fields only on EVENT. -/
def attentionResponse : Attention → Response
  | .none => { att := 0b00#2 }
  | .event e => { att := 0b01#2, kind := kindCode e.kind, chan := e.chan, pitch := e.pitch, vel := e.vel }
  | .error => { att := 0b10#2 }

/-- The response of a clock byte (R74, R183). -/
def syncResponse (pulse : Bool) : Response := { sync := BitVec.ofBool pulse }

/-- The response of a READ or a POLL (R74). -/
def dataResponse (v : Byte) : Response := { data := v }

end Sys2Proof.Machine
end

