-- ==== Sys2Proof/Machine/Ops.lean ====
section
/-! DEFINITION. The named operations over the grids and the registers. Every meaning is written over these. -/

namespace Sys2Proof.Machine

/-! ### Values derived from the parameters (R11) -/

/-- The subdivision s of R11's table. -/
def subdivision : Subdiv → Nat
  | .whole => 1
  | .half => 2
  | .quarter => 4
  | .eighth => 8
  | .sixteenth => 16

/-- N = 16/s, the first-stage wraps per sync (R11). -/
def wrapsPerSync (d : Subdiv) : Nat := 16 / subdivision d

/-- THRESH = N − 1 (R11, R181). -/
def thresh (d : Subdiv) : BitVec 4 := BitVec.ofNat 4 (wrapsPerSync d - 1)

/-- The SUBDIV of a subdivision value, if it is in R11's domain. -/
def subdivOf? (n : Nat) : Option Subdiv :=
  [Subdiv.whole, .half, .quarter, .eighth, .sixteenth].find? (subdivision · == n)

/-! ### Grid contents -/

/-- How many cells a grid has (R50). -/
def gridSize : Nat := 2048

/-- The byte at address `a`; an unlisted address reads as 0 (R37). -/
def memoryRead : Memory → Nat → Byte
  | [], _ => 0#8
  | (b, v) :: m, a => if a = b then v else memoryRead m a

/-- Puts a byte that is not 0 at address `a`, in address order, in place of what stood there. -/
def memoryInsert : Memory → Nat → Byte → Memory
  | [], a, v => [(a, v)]
  | (b, u) :: m, a, v =>
    if a < b then (a, v) :: (b, u) :: m
    else if a = b then (a, v) :: m
    else (b, u) :: memoryInsert m a v

/-- Makes address `a` read as `v`. Writing 0 removes the entry, which keeps the form canonical. -/
def memoryWrite (m : Memory) (a : Nat) (v : Byte) : Memory :=
  if v = 0#8 then m.filter (fun c => c.1 != a) else memoryInsert m a v

/-- From address `lo` on: addresses strictly rising and below 2048, no byte 0. -/
def wfFrom (lo : Nat) : Memory → Bool
  | [] => true
  | (a, v) :: m => decide (lo ≤ a) && decide (a < gridSize) && v != 0#8 && wfFrom (a + 1) m

/-- The canonical form of a grid. -/
def Memory.wf (m : Memory) : Bool := wfFrom 0 m

/-- MemRead(G, a, 1) (R52). Every 11-bit address is backed, so it never faults. -/
def memRead (g : Grid) (a : BitVec 11) (b : Block) : Byte :=
  match g with
  | .active => memoryRead b.active a.toNat
  | .accum => memoryRead b.accum a.toNat

/-- MemWrite(G, a, 1, v) (R53): no other cell changes. -/
def memWrite (g : Grid) (a : BitVec 11) (v : Byte) (b : Block) : Block :=
  match g with
  | .active => { b with active := memoryWrite b.active a.toNat v }
  | .accum => { b with accum := memoryWrite b.accum a.toNat v }

/-! ### The decoder's registers -/

/-- LatchStatus(x) without its response (R101). D1 is unchanged (decision D13). -/
def latchStatus (x : Byte) (b : Block) : Block :=
  { b with status := statusOf x, chan := channelOf x, phase := .awaitD1 }

/-- Data1 without its response (R109). -/
def storeFirst (d : BitVec 7) (b : Block) : Block :=
  { b with d1 := d, phase := .awaitD2 }

/-- Back to "awaiting first data byte" (R114). -/
def awaitFirst (b : Block) : Block := { b with phase := .awaitD1 }

/-- SysIgnore (R117): no state changes; NONE. -/
def sysIgnore (b : Block) : Response × Block := (attentionResponse .none, b)

/-! ### Completing a message -/

/-- NoteTableApply (R150 to R153), at the cell of the event's channel and pitch. -/
def noteTableApply (e : VoiceEvent) (b : Block) : Block :=
  match e.kind with
  | .noteOn =>
    memWrite .accum (cellAddr (rowOf e.chan) e.pitch) (e.vel.setWidth 8)
      (memWrite .active (cellAddr (rowOf e.chan) e.pitch) (e.vel.setWidth 8) b)
  | .noteOff => memWrite .active (cellAddr (rowOf e.chan) e.pitch) 0#8 b
  | .other => b

/-- The event a message completes as (R113): the registers as they were before the step. -/
def completedEvent (vel : BitVec 7) (b : Block) : VoiceEvent :=
  { kind := resolve b.status vel, chan := b.chan, pitch := b.d1, vel := vel }

/-- A successful completion (R113, R114) with the dispatcher's part of it (R150, R180): EVENT, and the note table. -/
def emitEvent (e : VoiceEvent) (b : Block) : Response × Block :=
  (attentionResponse (.event e), noteTableApply e (awaitFirst b))

/-- TAKING THE ONE EXCEPTION, DecodeError (R220 to R225): `att = ERROR`, PHASE back to AWAIT_D1, nothing saved, nothing
else changed, and control goes nowhere (R224). There is no return from it: the next status byte resynchronises (R225). -/
def raiseDecodeError (b : Block) : Response × Block := (attentionResponse .error, awaitFirst b)

/-- Data2's completion (R110, R230): the range check decides between EVENT and ERROR. -/
def completeMessage (vel : BitVec 7) (b : Block) : Response × Block :=
  if rangeOK b.chan b.d1 then emitEvent (completedEvent vel b) b else raiseDecodeError b

/-! ### The clock divider and the sync latch -/

/-- ClockStep() on a build with subdivision `d` (R181): the sync bit, and the block with the counters advanced. C2 is
compared before it is advanced. -/
def clockStep (d : Subdiv) (b : Block) : Bool × Block :=
  if b.c1 = 3#2 then
    if b.c2 = thresh d then (true, { b with c1 := 0#2, c2 := 0#4 })
    else (false, { b with c1 := 0#2, c2 := b.c2 + 1#4 })
  else (false, { b with c1 := b.c1 + 1#2 })

/-- SYNC_SEEN <- 1 when a pulse fired (R186). -/
def latchSync (pulse : Bool) (b : Block) : Block :=
  { b with syncSeen := pulse || b.syncSeen }

/-- SYNC_SEEN <- 0 (R187). -/
def clearSync (b : Block) : Block := { b with syncSeen := false }

/-- What POLL answers: SYNC_SEEN in bit 0 (R187). -/
def latchByte (b : Block) : Byte := (BitVec.ofBool b.syncSeen).setWidth 8

/-! ### The sweep -/

/-- Sweep's effect on ACCUM (R154): a listed cell stays only if ACTIVE is not 0 there; an unlisted one is 0 already. -/
def sweptAccum (active accum : Memory) : Memory :=
  accum.filter (fun c => memoryRead active c.1 != 0#8)

/-- Sweep() without its response (R154). -/
def sweepGrids (b : Block) : Block := { b with accum := sweptAccum b.active b.accum }

/-! ### The block in its surroundings -/

/-- The system after the block's step returned `r` and `b` (R15, R70): the block is replaced and the response is on the
ports. -/
def answered (r : Response) (b : Block) (s : State) : State := { s with block := b, rsp := some r }

/-- The outcome of a step whose block answered `a` (R46): it changes nothing else of the system. -/
def perform (a : Answer) (s : State) : Host.Outcome State Fault Refusal :=
  match a with
  | .ok (r, b) => .next (answered r b s)
  | .error e => .refused e

/-! ### What the host's pins do -/

/-- The edge with `rst = 1` (R250): the block at its reset values, no response. The parameters (R254) and what the host has
yet to drive are not the block's state. -/
def hostReset (s : State) : State := { s with block := Block.reset, rsp := none }

/-- An edge with no command (R236): all state holds, and `rsp_valid` is 0 (R71). -/
def idle (s : State) : State := { s with rsp := none }

/-- The input the host drives for command `w` (R71). -/
def PortInput.command (w : Word) : PortInput := { rst := false, cmdValid := true, cmdWord := w }

/-- The input at the next edge, and the state with it taken from the stream. Past its end the host drives nothing. -/
def takeInput (s : State) : Option (PortInput × State) :=
  match s.stream with
  | [] => none
  | p :: rest => some (p, { s with stream := rest })

/-- Boot (R255): SUBDIV and HAS_SWEEP chosen, then reset. A SUBDIV outside R11's domain is refused before any step. -/
def boot (subdiv : Nat) (hasSweep : Bool) : Host.Outcome State Fault Refusal :=
  match subdivOf? subdiv with
  | some d => .next (State.resetWith { subdiv := d, hasSweep := hasSweep })
  | none => .refused .subdivOutsideDomain

/-- The refusal of a reserved word (R78). -/
def refusalOf : Reject → Refusal
  | .reservedCommand => .reservedCommand
  | .reservedOperand => .reservedOperand
  | .sweepAbsent => .sweepAbsent

end Sys2Proof.Machine
end

