-- ==== Sys2Proof/Machine/ClockPoll.lean ====
section
/-! DEFINITION. NOP, the timing clock and POLL (R183, R187, R189). -/

namespace Sys2Proof.Machine

/-- NOP, R189: every response field 0; SYNC_SEEN is not cleared. -/
def blockNop (b : Block) : Answer := .ok (Response.zero, b)

/-- NOP in the system. -/
def execNop (s : State) : Host.Outcome State Fault Refusal := perform (blockNop s.block) s

/-- BYTE.CLOCK, R183, on a build with subdivision `d`. -/
def blockClock (d : Subdiv) (b : Block) : Answer :=
  .ok (syncResponse (clockStep d b).1, latchSync (clockStep d b).1 (clockStep d b).2)

/-- BYTE.CLOCK in the system. -/
def execClock (s : State) : Host.Outcome State Fault Refusal := perform (blockClock s.cfg.subdiv s.block) s

/-- POLL, R187: the latch as it was before the step, then cleared. -/
def blockPoll (b : Block) : Answer := .ok (dataResponse (latchByte b), clearSync b)

/-- POLL in the system. -/
def execPoll (s : State) : Host.Outcome State Fault Refusal := perform (blockPoll s.block) s

end Sys2Proof.Machine
end

