-- ==== Sys2Proof/Machine/DataBytes.lean ====
section
/-! DEFINITION. The data bytes 0x00–0x7F (R109, R110). Each row stands under its table condition on PHASE (R85). -/

namespace Sys2Proof.Machine

/-- BYTE.DATA1, R109. -/
def blockData1 (d : BitVec 7) (b : Block) : Answer :=
  if b.phase = .awaitD1 then .ok (attentionResponse .none, storeFirst d b) else .error .phaseCondition

/-- BYTE.DATA1 in the system. -/
def execData1 (d : BitVec 7) (s : State) : Host.Outcome State Fault Refusal := perform (blockData1 d s.block) s

/-- BYTE.DATA2, R110. -/
def blockData2 (vel : BitVec 7) (b : Block) : Answer :=
  if b.phase = .awaitD2 then .ok (completeMessage vel b) else .error .phaseCondition

/-- BYTE.DATA2 in the system. -/
def execData2 (vel : BitVec 7) (s : State) : Host.Outcome State Fault Refusal := perform (blockData2 vel s.block) s

end Sys2Proof.Machine
end

