-- ==== Sys2Proof/Machine/NoteTable.lean ====
section
/-! DEFINITION. The host's commands on the note table: SWEEP, READ_ACTIVE and READ_ACCUM (R154 to R156). -/

namespace Sys2Proof.Machine

/-- SWEEP, R154; refused when HAS_SWEEP = false (R12). -/
def blockSweep (hasSweep : Bool) (b : Block) : Answer :=
  if hasSweep then .ok (Response.zero, sweepGrids b) else .error .sweepAbsent

/-- SWEEP in the system. -/
def execSweep (s : State) : Host.Outcome State Fault Refusal := perform (blockSweep s.cfg.hasSweep s.block) s

/-- READ_ACTIVE, R155. -/
def blockReadActive (row : BitVec 4) (p : BitVec 7) (b : Block) : Answer :=
  .ok (dataResponse (memRead .active (cellAddr row p) b), b)

/-- READ_ACTIVE in the system. -/
def execReadActive (row : BitVec 4) (p : BitVec 7) (s : State) : Host.Outcome State Fault Refusal :=
  perform (blockReadActive row p s.block) s

/-- READ_ACCUM, R156. -/
def blockReadAccum (row : BitVec 4) (p : BitVec 7) (b : Block) : Answer :=
  .ok (dataResponse (memRead .accum (cellAddr row p) b), b)

/-- READ_ACCUM in the system. -/
def execReadAccum (row : BitVec 4) (p : BitVec 7) (s : State) : Host.Outcome State Fault Refusal :=
  perform (blockReadAccum row p s.block) s

end Sys2Proof.Machine
end

