-- ==== Sys2Proof/Machine/StatusBytes.lean ====
section
/-! DEFINITION. The voice status bytes 0x80–0xEF (R101 to R108): each latches its status and channel. -/

namespace Sys2Proof.Machine

/-- BYTE.NOTE_OFF, R102: status 0x80–0x8F. -/
def blockNoteOff (n : BitVec 4) (b : Block) : Answer :=
  .ok (attentionResponse .none, latchStatus (statusByte 0x8#4 n) b)

/-- BYTE.NOTE_OFF in the system. -/
def execNoteOff (n : BitVec 4) (s : State) : Host.Outcome State Fault Refusal := perform (blockNoteOff n s.block) s

/-- BYTE.NOTE_ON, R103: status 0x90–0x9F. -/
def blockNoteOn (n : BitVec 4) (b : Block) : Answer :=
  .ok (attentionResponse .none, latchStatus (statusByte 0x9#4 n) b)

/-- BYTE.NOTE_ON in the system. -/
def execNoteOn (n : BitVec 4) (s : State) : Host.Outcome State Fault Refusal := perform (blockNoteOn n s.block) s

/-- BYTE.STATUS_A, R104: status 0xA0–0xAF. -/
def blockStatusA (n : BitVec 4) (b : Block) : Answer :=
  .ok (attentionResponse .none, latchStatus (statusByte 0xA#4 n) b)

/-- BYTE.STATUS_A in the system. -/
def execStatusA (n : BitVec 4) (s : State) : Host.Outcome State Fault Refusal := perform (blockStatusA n s.block) s

/-- BYTE.STATUS_B, R105: status 0xB0–0xBF. -/
def blockStatusB (n : BitVec 4) (b : Block) : Answer :=
  .ok (attentionResponse .none, latchStatus (statusByte 0xB#4 n) b)

/-- BYTE.STATUS_B in the system. -/
def execStatusB (n : BitVec 4) (s : State) : Host.Outcome State Fault Refusal := perform (blockStatusB n s.block) s

/-- BYTE.STATUS_C, R106: status 0xC0–0xCF. -/
def blockStatusC (n : BitVec 4) (b : Block) : Answer :=
  .ok (attentionResponse .none, latchStatus (statusByte 0xC#4 n) b)

/-- BYTE.STATUS_C in the system. -/
def execStatusC (n : BitVec 4) (s : State) : Host.Outcome State Fault Refusal := perform (blockStatusC n s.block) s

/-- BYTE.STATUS_D, R107: status 0xD0–0xDF. -/
def blockStatusD (n : BitVec 4) (b : Block) : Answer :=
  .ok (attentionResponse .none, latchStatus (statusByte 0xD#4 n) b)

/-- BYTE.STATUS_D in the system. -/
def execStatusD (n : BitVec 4) (s : State) : Host.Outcome State Fault Refusal := perform (blockStatusD n s.block) s

/-- BYTE.STATUS_E, R108: status 0xE0–0xEF. -/
def blockStatusE (n : BitVec 4) (b : Block) : Answer :=
  .ok (attentionResponse .none, latchStatus (statusByte 0xE#4 n) b)

/-- BYTE.STATUS_E in the system. -/
def execStatusE (n : BitVec 4) (s : State) : Host.Outcome State Fault Refusal := perform (blockStatusE n s.block) s

end Sys2Proof.Machine
end

