-- ==== Sys2Proof/Machine/SystemBytes.lean ====
section
/-! DEFINITION. The system bytes 0xF0–0xF7 and 0xF9–0xFF (R117, R120 to R127, R129 to R135): each a deliberate no-op
with response NONE. -/

namespace Sys2Proof.Machine

/-- BYTE.SYS_F0, R120 (System Exclusive start; it starts no framing, R118). -/
def blockSysF0 (b : Block) : Answer := .ok (sysIgnore b)

/-- BYTE.SYS_F0 in the system. -/
def execSysF0 (s : State) : Host.Outcome State Fault Refusal := perform (blockSysF0 s.block) s

/-- BYTE.SYS_F1, R121 (MTC Quarter Frame). -/
def blockSysF1 (b : Block) : Answer := .ok (sysIgnore b)

/-- BYTE.SYS_F1 in the system. -/
def execSysF1 (s : State) : Host.Outcome State Fault Refusal := perform (blockSysF1 s.block) s

/-- BYTE.SYS_F2, R122 (Song Position Pointer). -/
def blockSysF2 (b : Block) : Answer := .ok (sysIgnore b)

/-- BYTE.SYS_F2 in the system. -/
def execSysF2 (s : State) : Host.Outcome State Fault Refusal := perform (blockSysF2 s.block) s

/-- BYTE.SYS_F3, R123 (Song Select). -/
def blockSysF3 (b : Block) : Answer := .ok (sysIgnore b)

/-- BYTE.SYS_F3 in the system. -/
def execSysF3 (s : State) : Host.Outcome State Fault Refusal := perform (blockSysF3 s.block) s

/-- BYTE.SYS_F4, R124 (undefined in MIDI 1.0). -/
def blockSysF4 (b : Block) : Answer := .ok (sysIgnore b)

/-- BYTE.SYS_F4 in the system. -/
def execSysF4 (s : State) : Host.Outcome State Fault Refusal := perform (blockSysF4 s.block) s

/-- BYTE.SYS_F5, R125 (undefined in MIDI 1.0). -/
def blockSysF5 (b : Block) : Answer := .ok (sysIgnore b)

/-- BYTE.SYS_F5 in the system. -/
def execSysF5 (s : State) : Host.Outcome State Fault Refusal := perform (blockSysF5 s.block) s

/-- BYTE.SYS_F6, R126 (Tune Request; running status is kept). -/
def blockSysF6 (b : Block) : Answer := .ok (sysIgnore b)

/-- BYTE.SYS_F6 in the system. -/
def execSysF6 (s : State) : Host.Outcome State Fault Refusal := perform (blockSysF6 s.block) s

/-- BYTE.SYS_F7, R127 (End of Exclusive). -/
def blockSysF7 (b : Block) : Answer := .ok (sysIgnore b)

/-- BYTE.SYS_F7 in the system. -/
def execSysF7 (s : State) : Host.Outcome State Fault Refusal := perform (blockSysF7 s.block) s

/-- BYTE.SYS_F9, R129 (undefined in MIDI 1.0). -/
def blockSysF9 (b : Block) : Answer := .ok (sysIgnore b)

/-- BYTE.SYS_F9 in the system. -/
def execSysF9 (s : State) : Host.Outcome State Fault Refusal := perform (blockSysF9 s.block) s

/-- BYTE.SYS_FA, R130 (Start; the divider is not aligned, R185). -/
def blockSysFA (b : Block) : Answer := .ok (sysIgnore b)

/-- BYTE.SYS_FA in the system. -/
def execSysFA (s : State) : Host.Outcome State Fault Refusal := perform (blockSysFA s.block) s

/-- BYTE.SYS_FB, R131 (Continue). -/
def blockSysFB (b : Block) : Answer := .ok (sysIgnore b)

/-- BYTE.SYS_FB in the system. -/
def execSysFB (s : State) : Host.Outcome State Fault Refusal := perform (blockSysFB s.block) s

/-- BYTE.SYS_FC, R132 (Stop; later clock bytes still count). -/
def blockSysFC (b : Block) : Answer := .ok (sysIgnore b)

/-- BYTE.SYS_FC in the system. -/
def execSysFC (s : State) : Host.Outcome State Fault Refusal := perform (blockSysFC s.block) s

/-- BYTE.SYS_FD, R133 (undefined in MIDI 1.0). -/
def blockSysFD (b : Block) : Answer := .ok (sysIgnore b)

/-- BYTE.SYS_FD in the system. -/
def execSysFD (s : State) : Host.Outcome State Fault Refusal := perform (blockSysFD s.block) s

/-- BYTE.SYS_FE, R134 (Active Sensing). -/
def blockSysFE (b : Block) : Answer := .ok (sysIgnore b)

/-- BYTE.SYS_FE in the system. -/
def execSysFE (s : State) : Host.Outcome State Fault Refusal := perform (blockSysFE s.block) s

/-- BYTE.SYS_FF, R135 (System Reset; it does not reset the block). -/
def blockSysFF (b : Block) : Answer := .ok (sysIgnore b)

/-- BYTE.SYS_FF in the system. -/
def execSysFF (s : State) : Host.Outcome State Fault Refusal := perform (blockSysFF s.block) s

end Sys2Proof.Machine
end

