-- ==== Sys2Proof/Machine/Dispatch.lean ====
section
/-! DEFINITION. exec: one arm per instruction, each one direct call of its meaning. -/

namespace Sys2Proof.Machine

def exec (i : Instr) (s : State) : Host.Outcome State Fault Refusal :=
  match i with
  | .nop => Sys2Proof.Machine.execNop s
  | .data1 d => Sys2Proof.Machine.execData1 d s
  | .data2 vel => Sys2Proof.Machine.execData2 vel s
  | .noteOff n => Sys2Proof.Machine.execNoteOff n s
  | .noteOn n => Sys2Proof.Machine.execNoteOn n s
  | .statusA n => Sys2Proof.Machine.execStatusA n s
  | .statusB n => Sys2Proof.Machine.execStatusB n s
  | .statusC n => Sys2Proof.Machine.execStatusC n s
  | .statusD n => Sys2Proof.Machine.execStatusD n s
  | .statusE n => Sys2Proof.Machine.execStatusE n s
  | .sysF0 => Sys2Proof.Machine.execSysF0 s
  | .sysF1 => Sys2Proof.Machine.execSysF1 s
  | .sysF2 => Sys2Proof.Machine.execSysF2 s
  | .sysF3 => Sys2Proof.Machine.execSysF3 s
  | .sysF4 => Sys2Proof.Machine.execSysF4 s
  | .sysF5 => Sys2Proof.Machine.execSysF5 s
  | .sysF6 => Sys2Proof.Machine.execSysF6 s
  | .sysF7 => Sys2Proof.Machine.execSysF7 s
  | .clock => Sys2Proof.Machine.execClock s
  | .sysF9 => Sys2Proof.Machine.execSysF9 s
  | .sysFA => Sys2Proof.Machine.execSysFA s
  | .sysFB => Sys2Proof.Machine.execSysFB s
  | .sysFC => Sys2Proof.Machine.execSysFC s
  | .sysFD => Sys2Proof.Machine.execSysFD s
  | .sysFE => Sys2Proof.Machine.execSysFE s
  | .sysFF => Sys2Proof.Machine.execSysFF s
  | .sweep => Sys2Proof.Machine.execSweep s
  | .poll => Sys2Proof.Machine.execPoll s
  | .readActive row p => Sys2Proof.Machine.execReadActive row p s
  | .readAccum row p => Sys2Proof.Machine.execReadAccum row p s

end Sys2Proof.Machine
end

