-- ==== Sys2Proof/Machine/Accept.lean ====
section
/-! DEFINITION. What one edge does: accepting a command word, and the pins of R70. -/

namespace Sys2Proof.Machine

/-- The step for one accepted command word (R190): its row's meaning, or a refusal if it is reserved (R78). -/
def acceptWord (w : Word) (s : State) : Host.Outcome State Fault Refusal :=
  match decode s.block.phase s.cfg.hasSweep w with
  | .ok i => exec i s
  | .error r => .refused (refusalOf r)

/-- One rising edge at which the block is ready (R71, R250): `rst` first, then a valid command, else all state holds. -/
def clockEdge (p : PortInput) (s : State) : Host.Outcome State Fault Refusal :=
  if p.rst then .next (hostReset s)
  else if p.cmdValid then acceptWord p.cmdWord s
  else .next (idle s)

/-- The command `w` put where the next step takes its input, before what the host had yet to drive. -/
def driveWord (w : Word) (s : State) : State :=
  { s with stream := PortInput.command w :: s.stream }

end Sys2Proof.Machine
end

