-- ==== Sys2Proof/Machine/Step.lean ====
section
/-! DEFINITION. The step: one edge of `clk` at which the block is ready, with the next input of the host's stream. -/

namespace Sys2Proof.Machine

/-- Takes the next input and performs its edge. Past the end of the stream the host drives nothing: the block idles (R236). -/
def step (s : State) : Host.Outcome State Fault Refusal :=
  match takeInput s with
  | none => .next (idle s)
  | some (p, t) => clockEdge p t

/-- `s` with the host driving, at the next edge, the command whose low `nbits` bits are `w`'s (log entry 4). -/
def State.withFetchWord (s : State) (nbits w : Nat) : State :=
  driveWord (BitVec.ofNat 16 (w % 2 ^ nbits)) s

end Sys2Proof.Machine
end

