-- ==== Sys2Proof/Machine/Assembler.lean ====
section
/-! DEFINITION. The assembler syntax and the pseudo-commands (R87, R88). The block never sees them: a host does. -/

namespace Sys2Proof.Machine

/-- A source line: a command of R87 or a pseudo-command of R88, its operands as they are written. -/
inductive AsmLine where
  | nop
  | byte (b : Nat)
  | sweep
  | poll
  | readActive (c p : Nat)
  | readAccum (c p : Nat)
  | noteOn (c p v : Nat)
  | noteOff (c p v : Nat)
  | runningStatus (p v : Nat)
  | clocks (n : Nat)
  | feed (bs : List Nat)
deriving DecidableEq, Repr

/-- c is 1..16. -/
def channelInRange (c : Nat) : Bool := decide (1 ≤ c) && decide (c ≤ 16)

/-- p, v: 0..127. -/
def dataInRange (p : Nat) : Bool := decide (p ≤ 127)

/-- b: 0x00..0xFF. -/
def byteInRange (b : Nat) : Bool := decide (b ≤ 0xFF)

/-- Every operand is in its range (R87, R88). -/
def AsmLine.wellFormed : AsmLine → Bool
  | .nop => true
  | .byte b => byteInRange b
  | .sweep => true
  | .poll => true
  | .readActive c p => channelInRange c && dataInRange p
  | .readAccum c p => channelInRange c && dataInRange p
  | .noteOn c p v => channelInRange c && dataInRange p && dataInRange v
  | .noteOff c p v => channelInRange c && dataInRange p && dataInRange v
  | .runningStatus p v => dataInRange p && dataInRange v
  | .clocks _ => true
  | .feed bs => bs.all byteInRange

/-- The word of `BYTE b`: 0x2000 | b (R87). -/
def asmByte (b : Nat) : Word := BitVec.ofNat 16 (0x2000 ||| b)

/-- The words of a line (R87, R88). -/
def AsmLine.words : AsmLine → List Word
  | .nop => [0x0000#16]
  | .byte b => [asmByte b]
  | .sweep => [0x4000#16]
  | .poll => [0x6000#16]
  | .readActive c p => [BitVec.ofNat 16 (0x8000 ||| ((c - 1) <<< 7) ||| p)]
  | .readAccum c p => [BitVec.ofNat 16 (0xA000 ||| ((c - 1) <<< 7) ||| p)]
  | .noteOn c p v => [asmByte (0x90 ||| (c - 1)), asmByte p, asmByte v]
  | .noteOff c p v => [asmByte (0x80 ||| (c - 1)), asmByte p, asmByte v]
  | .runningStatus p v => [asmByte p, asmByte v]
  | .clocks n => List.replicate n (asmByte 0xF8)
  | .feed bs => bs.map asmByte

/-- The words of a line; none is the assembly error of R88, "not a command". -/
def assemble (l : AsmLine) : Option (List Word) := if l.wellFormed then some l.words else none

end Sys2Proof.Machine
end

