-- ==== Sys2Proof/Machine/Reference.lean ====
section
/-! DEFINITION. The spec's own pseudocode of the decoder, the dispatcher, the sweep and the step (R78, R100, R154, R180,
R190), by byte and by command field. The machine does not call these: obligations say that the machine, which decodes to
opcode rows and gives each row its meaning, does what they do. -/

namespace Sys2Proof.Machine

/-- Reserved(w) (R78): its three cases in order. -/
def reservedWord (hasSweep : Bool) (w : Word) : Bool :=
  decide (6 ≤ (cmdOf w).toNat) ||
  (match (cmdOf w).toNat with
    | 1 => w.extractLsb' 8 5 != 0#5
    | 4 => w.extractLsb' 11 2 != 0#2
    | 5 => w.extractLsb' 11 2 != 0#2
    | _ => operandOf w != 0#13) ||
  (decide ((cmdOf w).toNat = 2) && !hasSweep)

/-- DecoderFeed(x) (R100), for every byte, 0xF8 included (R128). It never touches the note table. -/
def decoderFeed (x : Byte) (b : Block) : Attention × Block :=
  if 0xF0 ≤ x.toNat then (.none, b)
  else if x.msb then (.none, latchStatus x b)
  else if b.phase = .awaitD1 then (.none, storeFirst (dataOf x) b)
  else if rangeOK b.chan b.d1 then (.event (completedEvent (dataOf x) b), awaitFirst b)
  else (.error, awaitFirst b)

/-- The dispatcher's use of a decoder result: the note table, on EVENT only (R180). -/
def applyAttention : Attention → Block → Block
  | .none, b => b
  | .event e, b => noteTableApply e b
  | .error, b => b

/-- Byte(x) (R180), on a build with subdivision `d`. -/
def byteDispatch (d : Subdiv) (x : Byte) (b : Block) : Response × Block :=
  if x = 0xF8#8 then (syncResponse (clockStep d b).1, latchSync (clockStep d b).1 (clockStep d b).2)
  else (attentionResponse (decoderFeed x b).1, applyAttention (decoderFeed x b).1 (decoderFeed x b).2)

/-- The first `n` rounds of Sweep()'s loop over the addresses (R154). -/
def sweepLoop (active : Memory) : Nat → Memory → Memory
  | 0, accum => accum
  | n + 1, accum =>
    if memoryRead active n = 0#8 then memoryWrite (sweepLoop active n accum) n 0#8
    else sweepLoop active n accum

/-- Step(w) (R190); none is its refusal. -/
def stepWord (cfg : Config) (w : Word) (b : Block) : Option (Response × Block) :=
  if reservedWord cfg.hasSweep w then none
  else
    match (cmdOf w).toNat with
    | 0 => some (Response.zero, b)
    | 1 => some (byteDispatch cfg.subdiv (byteOf w) b)
    | 2 => some (Response.zero, { b with accum := sweepLoop b.active gridSize b.accum })
    | 3 => some (dataResponse (latchByte b), clearSync b)
    | 4 => some (dataResponse (memRead .active (cellAddr (rowField w) (pitchField w)) b), b)
    | _ => some (dataResponse (memRead .accum (cellAddr (rowField w) (pitchField w)) b), b)

end Sys2Proof.Machine
end

