-- ==== Sys2Proof/Machine/BlockStep.lean ====
section
/-! DEFINITION. THE STEP OF R46: a function of the parameters, a command word and the block, that returns the response and the
next block, or a refusal. It reads and writes nothing else. The system's step (Machine/Step.lean) is this one with the
system's parameters, its next input and its block: `exec_eq_perform` and `acceptWord_eq_perform` of Laws/Exec.lean. -/

namespace Sys2Proof.Machine

/-- The meaning of a row over the block. -/
def blockExec (cfg : Config) (i : Instr) (b : Block) : Answer :=
  match i with
  | .nop => blockNop b
  | .data1 d => blockData1 d b
  | .data2 vel => blockData2 vel b
  | .noteOff n => blockNoteOff n b
  | .noteOn n => blockNoteOn n b
  | .statusA n => blockStatusA n b
  | .statusB n => blockStatusB n b
  | .statusC n => blockStatusC n b
  | .statusD n => blockStatusD n b
  | .statusE n => blockStatusE n b
  | .sysF0 => blockSysF0 b
  | .sysF1 => blockSysF1 b
  | .sysF2 => blockSysF2 b
  | .sysF3 => blockSysF3 b
  | .sysF4 => blockSysF4 b
  | .sysF5 => blockSysF5 b
  | .sysF6 => blockSysF6 b
  | .sysF7 => blockSysF7 b
  | .clock => blockClock cfg.subdiv b
  | .sysF9 => blockSysF9 b
  | .sysFA => blockSysFA b
  | .sysFB => blockSysFB b
  | .sysFC => blockSysFC b
  | .sysFD => blockSysFD b
  | .sysFE => blockSysFE b
  | .sysFF => blockSysFF b
  | .sweep => blockSweep cfg.hasSweep b
  | .poll => blockPoll b
  | .readActive row p => blockReadActive row p b
  | .readAccum row p => blockReadAccum row p b

/-- Step(w) (R46, R190): the row's meaning, or a refusal if the word is reserved (R78). SUBDIV and HAS_SWEEP are its argument
`cfg` (R32), and the response is returned (R34). -/
def blockStep (cfg : Config) (w : Word) (b : Block) : Answer :=
  match decode b.phase cfg.hasSweep w with
  | .ok i => blockExec cfg i b
  | .error r => .error (refusalOf r)

end Sys2Proof.Machine
end

