-- ==== Sys2Proof/Safety.lean ====
section
/-! DEFINITION. What statements are made of: a run of accepted commands, agreement of two states on a part, and the
invariant of the reachable states. -/

namespace Sys2Proof.Machine

/-! ### Runs -/

/-- The commands `ws` accepted in order from `s` (R61): the state after the last, or the first refusal. -/
def runWords : List Word → State → Host.Outcome State Fault Refusal
  | [], s => .next s
  | w :: ws, s =>
    match acceptWord w s with
    | .next t => runWords ws t
    | .fault f => .fault f
    | .refused r => .refused r

/-- The block's own run (R46): the commands `ws` in order, every response and the block after the last, or the first refusal. -/
def runBlock (cfg : Config) : List Word → Block → Except Refusal (List Response × Block)
  | [], b => .ok ([], b)
  | w :: ws, b =>
    match blockStep cfg w b with
    | .error e => .error e
    | .ok (r, c) =>
      match runBlock cfg ws c with
      | .error e => .error e
      | .ok (rs, d) => .ok (r :: rs, d)

/-- The command word of a timing clock byte, `BYTE 0xF8`. -/
def clockWord : Word := 0x20F8#16

/-- The POLL command word. -/
def pollWord : Word := 0x6000#16

/-- The SWEEP command word. -/
def sweepWord : Word := 0x4000#16

/-- The word is a BYTE command whose byte is a voice status byte 0x80–0xEF. -/
def isStatusWord (w : Word) : Bool := decide (0x2080 ≤ w.toNat ∧ w.toNat ≤ 0x20EF)

/-- The word is a BYTE command whose byte is a system byte 0xF0–0xFF, the clock byte among them. -/
def isSystemWord (w : Word) : Bool := decide (0x20F0 ≤ w.toNat ∧ w.toNat ≤ 0x20FF)

/-- The last step answered with `rsp_sync = 1`. -/
def syncFired (s : State) : Prop := ∃ r, s.rsp = some r ∧ r.sync = 1#1

/-! ### Agreement -/

/-- The decoder registers are the same. -/
def sameDecoder (b c : Block) : Prop :=
  c.status = b.status ∧ c.chan = b.chan ∧ c.d1 = b.d1 ∧ c.phase = b.phase

/-- The divider's counters are the same. -/
def sameDivider (b c : Block) : Prop := c.c1 = b.c1 ∧ c.c2 = b.c2

/-- Every cell of the grid reads the same. -/
def sameGrid (g : Grid) (b c : Block) : Prop := ∀ a : BitVec 11, memRead g a c = memRead g a b

/-- Every cell of both grids reads the same. -/
def sameGrids (b c : Block) : Prop := ∀ g, sameGrid g b c

/-- Every cell of the grid but that at `a` reads the same. -/
def sameGridBut (g : Grid) (a : BitVec 11) (b c : Block) : Prop :=
  ∀ x : BitVec 11, x ≠ a → memRead g x c = memRead g x b

/-- All the block's state is the same (R20's nine rows). -/
def sameBlock (b c : Block) : Prop :=
  sameDecoder b c ∧ sameDivider b c ∧ c.syncSeen = b.syncSeen ∧ sameGrids b c

/-- The parameters, and what the host has yet to drive, are the same. -/
def sameHostSide (s t : State) : Prop := t.cfg = s.cfg ∧ t.stream = s.stream

/-! ### Shapes shared by several rows -/

/-- What R101 says of one status row: the word 0x2000 | status | n is the row's, and the row latches its status and channel,
returns to AWAIT_D1 and answers NONE; D1, the divider, the latch and every cell are unchanged. -/
def statusRowLatches (row : BitVec 4 → Instr) (status : BitVec 8) (kind : EventKind) : Prop :=
  ∀ (n : BitVec 4) (s : State), ∃ t,
    decode s.block.phase s.cfg.hasSweep (0x2000#16 ||| status.setWidth 16 ||| n.setWidth 16) = .ok (row n) ∧
    exec (row n) s = .next t ∧ t.block.status = status ∧ t.block.chan.toNat = n.toNat + 1 ∧ t.block.phase = .awaitD1 ∧
    intent t.block.status = kind ∧ t.rsp = some Response.zero ∧ t.block.d1 = s.block.d1 ∧ sameDivider s.block t.block ∧
    t.block.syncSeen = s.block.syncSeen ∧ sameGrids s.block t.block ∧ sameHostSide s t

/-- A row that changes nothing: its word is its own, all the block's state is unchanged, and the response is zero. -/
def rowIsNoOp (w : Word) (i : Instr) : Prop :=
  ∀ s : State, ∃ t, decode s.block.phase s.cfg.hasSweep w = .ok i ∧ exec i s = .next t ∧ sameBlock s.block t.block ∧
    sameHostSide s t ∧ t.rsp = some Response.zero

/-! ### The invariant -/

/-- The legal values of STATUS (R20). -/
def legalStatus : List (BitVec 8) :=
  [0x00#8, 0x80#8, 0x90#8, 0xA0#8, 0xB0#8, 0xC0#8, 0xD0#8, 0xE0#8]

/-- What the block meets in every reachable state, on a build with subdivision `d`: the invariants of `10_state.md` section 8
that are not plain from a width (C1 ≤ 3 and D1 ≤ 127 are), and the canonical form of the grids. -/
structure Block.Inv (d : Subdiv) (b : Block) : Prop where
  /-- R38. -/
  status_legal : b.status ∈ legalStatus
  /-- R22: 0..16. -/
  chan_le : b.chan.toNat ≤ 16
  /-- R39. -/
  chan_zero_iff : b.chan = 0#5 ↔ b.status = 0x00#8
  /-- R42. -/
  c2_le : b.c2.toNat ≤ (thresh d).toNat
  /-- R43. -/
  cell_le : ∀ g a, (memRead g a b).toNat ≤ 127
  /-- R44. -/
  sounding_mirrored : ∀ a, memRead .active a b ≠ 0#8 → memRead .accum a b = memRead .active a b
  /-- The canonical form of each grid. -/
  active_wf : b.active.wf = true
  accum_wf : b.accum.wf = true

/-- The block's invariant, on the system's build. -/
def State.Inv (s : State) : Prop := s.block.Inv s.cfg.subdiv

end Sys2Proof.Machine
end

