-- ==== Sys2Proof/Certificates/Slice0/Obligations.lean ====
section
/-! DEFINITION. The statements for the provers. Each docstring names the rule it formalises; where a rule is one the spec
marks as its own inference or as its own choice of a convention the model extends, the docstring says so. -/

open Sys2Proof Sys2Proof.Machine

/-! ### Encoding -/

/-- Decode and encode agree on every instruction admitted in the phase and on the build, every operand value included. -/
def Obligations.DecodeOfEncodeIsTheInstruction : Prop :=
  ∀ (ph : Phase) (hasSweep : Bool) (i : Instr), i.wellFormed ph hasSweep = true →
    decode ph hasSweep (encode i) = .ok i

/-- A word the decoder reads is the encoding of what it reads, which is admitted: no bit of a word is ignored. -/
def Obligations.EncodeOfDecodeIsTheWord : Prop :=
  ∀ (ph : Phase) (hasSweep : Bool) (w : Word) (i : Instr), decode ph hasSweep w = .ok i →
    encode i = w ∧ i.wellFormed ph hasSweep = true

/-- R85, an inference of the spec from R72 to R79: every word is covered by exactly the one row the decoder names, or is
reserved and covered by none; and with HAS_SWEEP = true the reserved words are the seven ranges R85 lists. -/
def Obligations.WordHasExactlyItsTableRow : Prop :=
  (∀ (ph : Phase) (hasSweep : Bool) (w : Word),
    (opcodeTable.filter (OpcodeRow.covers ph hasSweep w)).map OpcodeRow.mnemonic =
      match decode ph hasSweep w with
      | .ok i => [i.mnemonic]
      | .error _ => []) ∧
  (∀ (ph : Phase) (w : Word), (∃ r, decode ph true w = .error r) ↔
    (0x0001 ≤ w.toNat ∧ w.toNat ≤ 0x1FFF) ∨ (0x2100 ≤ w.toNat ∧ w.toNat ≤ 0x3FFF) ∨
    (0x4001 ≤ w.toNat ∧ w.toNat ≤ 0x5FFF) ∨ (0x6001 ≤ w.toNat ∧ w.toNat ≤ 0x7FFF) ∨
    (0x8800 ≤ w.toNat ∧ w.toNat ≤ 0x9FFF) ∨ (0xA800 ≤ w.toNat ∧ w.toNat ≤ 0xBFFF) ∨
    (0xC000 ≤ w.toNat ∧ w.toNat ≤ 0xFFFF))

/-- R78: the step that would accept a word is refused exactly when the word is reserved, by one of the rule's three cases. -/
def Obligations.ReservedWordsAreRefused : Prop :=
  ∀ (s : State) (w : Word) (rest : List PortInput), s.stream = PortInput.command w :: rest →
    ((∃ r, step s = .refused r) ↔
      ((cmdOf w = 0b110#3 ∨ cmdOf w = 0b111#3) ∨
       (((cmdOf w = 0b000#3 ∨ cmdOf w = 0b010#3 ∨ cmdOf w = 0b011#3) ∧ w.toNat % 0x2000 ≠ 0) ∨
        (cmdOf w = 0b001#3 ∧ w.toNat / 0x100 % 0x20 ≠ 0) ∨
        ((cmdOf w = 0b100#3 ∨ cmdOf w = 0b101#3) ∧ w.toNat / 0x800 % 4 ≠ 0)) ∨
       (cmdOf w = 0b010#3 ∧ s.cfg.hasSweep = false)))

/-- Words written out from R72, R77 and R85 decode to the rows they stand for (the vectors V1 to V24 of
`95_test_vectors.md`). -/
def Obligations.WordsOfTheSpecDecode : Prop :=
  decode .awaitD1 true 0b0000000000000000#16 = .ok .nop ∧
  decode .awaitD1 true 0b0010000001000101#16 = .ok (.data1 0x45#7) ∧
  decode .awaitD2 true 0b0010000001000101#16 = .ok (.data2 0x45#7) ∧
  decode .awaitD2 true 0b0010000010001111#16 = .ok (.noteOff 15#4) ∧
  decode .awaitD1 true 0b0010000010010000#16 = .ok (.noteOn 0#4) ∧
  decode .awaitD1 true 0b0010000011101111#16 = .ok (.statusE 15#4) ∧
  decode .awaitD2 true 0b0010000011110000#16 = .ok .sysF0 ∧
  decode .awaitD2 true 0b0010000011111000#16 = .ok .clock ∧
  decode .awaitD1 true 0b0010000011111111#16 = .ok .sysFF ∧
  decode .awaitD1 true 0b0100000000000000#16 = .ok .sweep ∧
  decode .awaitD1 false 0b0100000000000000#16 = .error .sweepAbsent ∧
  decode .awaitD1 true 0b0110000000000000#16 = .ok .poll ∧
  decode .awaitD1 true 0b1000000000111100#16 = .ok (.readActive 0#4 60#7) ∧
  decode .awaitD2 true 0b1000011111111111#16 = .ok (.readActive 15#4 127#7) ∧
  decode .awaitD1 true 0b1010000010110000#16 = .ok (.readAccum 1#4 48#7) ∧
  decode .awaitD1 true 0b0000000000000001#16 = .error .reservedOperand ∧
  decode .awaitD1 true 0b1100000000000000#16 = .error .reservedCommand

/-! ### The step -/

/-- R71, R190: when the host's next input is a command whose word decodes to `i`, the step is exec of `i` on the state with
that input taken. The last clause is the host's withFetchWord, which drives such an input (log entry 4, a design choice). -/
def Obligations.StepRunsTheDecodedInstruction : Prop :=
  (∀ (s : State) (w : Word) (rest : List PortInput) (i : Instr), s.stream = PortInput.command w :: rest →
    decode s.block.phase s.cfg.hasSweep w = .ok i → step s = exec i { s with stream := rest }) ∧
  (∀ (s : State) (w : Word) (i : Instr), decode s.block.phase s.cfg.hasSweep w = .ok i →
    step (s.withFetchWord 16 w.toNat) = exec i s)

/-- R37: what reset leaves, on every build. -/
def Obligations.ResetValues : Prop :=
  (∀ cfg : Config,
    (State.resetWith cfg).block.status = 0x00#8 ∧ (State.resetWith cfg).block.chan = 0#5 ∧
    (State.resetWith cfg).block.d1 = 0#7 ∧
    (State.resetWith cfg).block.phase = .awaitD1 ∧ phaseCode (State.resetWith cfg).block.phase = 0#1 ∧
    (State.resetWith cfg).block.c1 = 0#2 ∧ (State.resetWith cfg).block.c2 = 0#4 ∧
    (State.resetWith cfg).block.syncSeen = false ∧
    ∀ (g : Grid) (a : BitVec 11), memRead g a (State.resetWith cfg).block = 0#8) ∧
  State.reset = State.resetWith State.reset.cfg

/-- R250: an edge with `rst = 1` accepts no command, whatever `cmd_valid` is, and sets every piece of state to its reset
value. -/
def Obligations.ResetEdgeLeavesTheResetState : Prop :=
  ∀ (s : State) (p : PortInput) (rest : List PortInput), s.stream = p :: rest → p.rst = true →
    ∃ t, step s = .next t ∧ t.block.status = 0x00#8 ∧ t.block.chan = 0#5 ∧ t.block.d1 = 0#7 ∧ t.block.phase = .awaitD1 ∧
      t.block.c1 = 0#2 ∧ t.block.c2 = 0#4 ∧ t.block.syncSeen = false ∧
      ∀ (g : Grid) (a : BitVec 11), memRead g a t.block = 0#8

/-- The model's choice (log entry 5), after R236, "all state holds", and R71: an edge that carries no command, and a step
past the end of the host's inputs, change none of the block's state; they and a reset edge give no response and keep the
parameters and the host's further inputs. -/
def Obligations.EdgesWithoutACommandAnswerNothing : Prop :=
  (∀ (s : State) (p : PortInput) (rest : List PortInput), s.stream = p :: rest →
    (p.rst = false → p.cmdValid = false →
      ∃ t, step s = .next t ∧ sameBlock s.block t.block ∧ t.cfg = s.cfg ∧ t.stream = rest ∧ t.rsp = none) ∧
    (p.rst = true → ∃ t, step s = .next t ∧ t.cfg = s.cfg ∧ t.stream = rest ∧ t.rsp = none)) ∧
  (∀ s : State, s.stream = [] → ∃ t, step s = .next t ∧ sameBlock s.block t.block ∧ sameHostSide s t ∧ t.rsp = none)

/-- R190, with the pseudocode it calls (R78, R100, R180, R154 and its loop): on every word and every build the block's step, and
the system that accepts the word, give what the spec's step gives, response and next block, and are refused where that
refuses. The premise is the canonical form of ACCUM, which every step keeps. A configuration outside R11's domain is refused
before any step. -/
def Obligations.MachineIsTheSpecStep : Prop :=
  (∀ (w : Word) (s : State), s.block.accum.wf = true →
    match stepWord s.cfg w s.block with
    | some (r, b) => blockStep s.cfg w s.block = .ok (r, b) ∧ acceptWord w s = .next { s with block := b, rsp := some r }
    | none => ∃ e, blockStep s.cfg w s.block = .error e ∧ acceptWord w s = .refused e) ∧
  (∀ (n : Nat) (hasSweep : Bool), n ∉ [1, 2, 4, 8, 16] → ∃ r, boot n hasSweep = .refused r)

/-- R46, with R32 and R34: the system's step on a command is the block's step, a function of the parameters, the word and the
block alone, that returns the response and the next block, or a refusal. The system only puts the two where the host finds
them: the parameters stay, and the response on the ports before the step is not read. -/
def Obligations.StepIsTheBlockStep : Prop :=
  ∀ (s : State) (w : Word) (rest : List PortInput), s.stream = PortInput.command w :: rest →
    match blockStep s.cfg w s.block with
    | .ok (r, b) => step s = .next { block := b, cfg := s.cfg, rsp := some r, stream := rest }
    | .error e => step s = .refused e

/-- R34, R46 and R61: a run of the system is a run of the block. It ends in the block's last state, the parameters as they
were, and the last of the responses the block returned on the ports; or in the block's refusal. -/
def Obligations.SystemRunIsTheBlockRun : Prop :=
  ∀ (ws : List Word) (s : State),
    match runBlock s.cfg ws s.block with
    | .ok (rs, b) => rs.length = ws.length ∧
        runWords ws s = .next { block := b, cfg := s.cfg, rsp := rs.getLast?.or s.rsp, stream := s.stream }
    | .error e => runWords ws s = .refused e

/-- R34: "No rule reads the response of an earlier step". Nor does a step: whatever stood on the response ports before, the
outcome is the same, on a command, a reset edge, an idle edge and past the end of the stream. -/
def Obligations.NoStepReadsAnEarlierResponse : Prop :=
  ∀ (s : State) (r : Option Response), step { s with rsp := r } = step s

/-- Running the machine on a stream of commands is accepting them one after another (R61). -/
def Obligations.StreamRunIsTheRunOfItsWords : Prop :=
  ∀ (ws : List Word) (s : State),
    Host.Core.run Sys2Proof.core ws.length { s with stream := ws.map PortInput.command } =
      runWords ws { s with stream := [] }

/-! ### Status bytes -/

/-- R101 to R108: all seven status rows. -/
def Obligations.StatusBytesLatchStatusAndChannel : Prop :=
  statusRowLatches Instr.noteOff 0x80#8 .noteOff ∧ statusRowLatches Instr.noteOn 0x90#8 .noteOn ∧
  statusRowLatches Instr.statusA 0xA0#8 .other ∧ statusRowLatches Instr.statusB 0xB0#8 .other ∧
  statusRowLatches Instr.statusC 0xC0#8 .other ∧ statusRowLatches Instr.statusD 0xD0#8 .other ∧
  statusRowLatches Instr.statusE 0xE0#8 .other

/-! ### Data bytes, completion and the decode error -/

/-- R109: a data byte awaited first is stored, in any STATUS, and nothing else changes but PHASE. -/
def Obligations.FirstDataByteIsStored : Prop :=
  ∀ (d : BitVec 7) (s : State), s.block.phase = .awaitD1 → ∃ t,
    decode s.block.phase s.cfg.hasSweep (0x2000#16 ||| d.setWidth 16) = .ok (.data1 d) ∧
    exec (.data1 d) s = .next t ∧ t.block.d1 = d ∧ t.block.phase = .awaitD2 ∧ t.rsp = some Response.zero ∧
    t.block.status = s.block.status ∧ t.block.chan = s.block.chan ∧ sameDivider s.block t.block ∧
    t.block.syncSeen = s.block.syncSeen ∧ sameGrids s.block t.block ∧ sameHostSide s t

/-- R110, R111, R114: a data byte awaited second completes the message. The response is the event, of the kind R111's three
rules give in their order, or ERROR when the range check fails; PHASE returns to AWAIT_D1 on both paths; the other registers
are unchanged. What happens to the grids is the next two statements. -/
def Obligations.SecondDataByteCompletesTheMessage : Prop :=
  ∀ (vel : BitVec 7) (s : State), s.block.phase = .awaitD2 → ∃ t r,
    decode s.block.phase s.cfg.hasSweep (0x2000#16 ||| vel.setWidth 16) = .ok (.data2 vel) ∧
    exec (.data2 vel) s = .next t ∧ t.block.phase = .awaitD1 ∧ t.block.status = s.block.status ∧
    t.block.chan = s.block.chan ∧ t.block.d1 = s.block.d1 ∧
    sameDivider s.block t.block ∧ t.block.syncSeen = s.block.syncSeen ∧ sameHostSide s t ∧ t.rsp = some r ∧
    ((1 ≤ s.block.chan.toNat ∧ s.block.chan.toNat ≤ 16 ∧ s.block.d1.toNat ≤ 127) →
      r = { att := 0b01#2,
            kind := if vel = 0#7 then 0b00#2 else if s.block.status = 0x80#8 then 0b00#2
              else if s.block.status = 0x90#8 then 0b01#2 else 0b10#2,
            chan := s.block.chan, pitch := s.block.d1, vel := vel }) ∧
    (¬ (1 ≤ s.block.chan.toNat ∧ s.block.chan.toNat ≤ 16 ∧ s.block.d1.toNat ≤ 127) → r = { att := 0b10#2 })

/-- R151 to R153, at R150's cell (c − 1) * 128 + p. A NOTE_ON writes its velocity, never 0, to both grids there; a NOTE_OFF
writes 0 to ACTIVE there and nothing to ACCUM; an OTHER writes nothing. Every other cell reads as before. -/
def Obligations.EventsWriteTheNoteTable : Prop :=
  ∀ (vel : BitVec 7) (s : State), s.block.phase = .awaitD2 → 1 ≤ s.block.chan.toNat → s.block.chan.toNat ≤ 16 → ∃ t,
    exec (.data2 vel) s = .next t ∧
    (resolve s.block.status vel = .noteOn →
      memRead .active (BitVec.ofNat 11 ((s.block.chan.toNat - 1) * 128 + s.block.d1.toNat)) t.block = vel.setWidth 8 ∧
      memRead .accum (BitVec.ofNat 11 ((s.block.chan.toNat - 1) * 128 + s.block.d1.toNat)) t.block = vel.setWidth 8 ∧
      memRead .active (BitVec.ofNat 11 ((s.block.chan.toNat - 1) * 128 + s.block.d1.toNat)) t.block ≠ 0#8 ∧
      sameGridBut .active (BitVec.ofNat 11 ((s.block.chan.toNat - 1) * 128 + s.block.d1.toNat)) s.block t.block ∧
      sameGridBut .accum (BitVec.ofNat 11 ((s.block.chan.toNat - 1) * 128 + s.block.d1.toNat)) s.block t.block) ∧
    (resolve s.block.status vel = .noteOff →
      memRead .active (BitVec.ofNat 11 ((s.block.chan.toNat - 1) * 128 + s.block.d1.toNat)) t.block = 0#8 ∧
      sameGridBut .active (BitVec.ofNat 11 ((s.block.chan.toNat - 1) * 128 + s.block.d1.toNat)) s.block t.block ∧
      sameGrid .accum s.block t.block) ∧
    (resolve s.block.status vel = .other → sameGrids s.block t.block)

/-- R221, R223: a decode error changes PHASE and nothing else of the block, and its event fields are 0. While CHAN is 0 every
further pair of data bytes errs again. -/
def Obligations.DecodeErrorOnlyReturnsToFirstDataByte : Prop :=
  (∀ (vel : BitVec 7) (s : State), s.block.phase = .awaitD2 → ¬ (1 ≤ s.block.chan.toNat ∧ s.block.chan.toNat ≤ 16) → ∃ t,
    exec (.data2 vel) s = .next t ∧ t.block.phase = .awaitD1 ∧ t.block.status = s.block.status ∧
    t.block.chan = s.block.chan ∧ t.block.d1 = s.block.d1 ∧
    sameDivider s.block t.block ∧ t.block.syncSeen = s.block.syncSeen ∧ sameGrids s.block t.block ∧ sameHostSide s t ∧
    t.rsp = some { att := 0b10#2 }) ∧
  (∀ (d vel : BitVec 7) (s : State), s.block.phase = .awaitD1 → s.block.chan = 0#5 → ∃ t,
    runWords [0x2000#16 ||| d.setWidth 16, 0x2000#16 ||| vel.setWidth 16] s = .next t ∧
    t.block.phase = .awaitD1 ∧ t.block.chan = 0#5 ∧ t.rsp = some { att := 0b10#2 })

/-- R220: ERROR = 0b10 is answered by BYTE.DATA2 when the range check fails, and by nothing else. -/
def Obligations.OnlySecondDataByteRaisesDecodeError : Prop :=
  ∀ (i : Instr) (s t : State) (r : Response), exec i s = .next t → t.rsp = some r →
    (r.att = 0b10#2 ↔
      ∃ vel, i = .data2 vel ∧ ¬ (1 ≤ s.block.chan.toNat ∧ s.block.chan.toNat ≤ 16 ∧ s.block.d1.toNat ≤ 127))

/-- R137, an inference of the spec ("The error can be reached by exactly one road"): in a state that meets the invariant, a
completion errs exactly when CHAN = 0, which is exactly when STATUS = 0x00. -/
def Obligations.ErrorExactlyWhileChannelIsZero : Prop :=
  ∀ (vel : BitVec 7) (s : State), s.Inv → s.block.phase = .awaitD2 → ∃ t r,
    exec (.data2 vel) s = .next t ∧ t.rsp = some r ∧ (r.att = 0b10#2 ↔ s.block.chan = 0#5) ∧
    (r.att = 0b10#2 ↔ s.block.status = 0x00#8)

/-- R39's second sentence, an inference of the spec: after any commands accepted since reset, CHAN = 0 exactly when none of
them was a status byte, and likewise STATUS = 0x00. -/
def Obligations.ChannelIsZeroUntilTheFirstStatusByte : Prop :=
  ∀ (cfg : Config) (ws : List Word) (s : State), runWords ws (State.resetWith cfg) = .next s →
    (s.block.chan = 0#5 ↔ ∀ w ∈ ws, isStatusWord w = false) ∧
    (s.block.status = 0x00#8 ↔ ∀ w ∈ ws, isStatusWord w = false)

/-- R116, an inference of the spec: under running status two data bytes are a whole message of the held STATUS and CHAN, and
leave both for the next. -/
def Obligations.RunningStatusPairIsAMessage : Prop :=
  ∀ (d vel : BitVec 7) (s : State), s.block.phase = .awaitD1 → 1 ≤ s.block.chan.toNat → s.block.chan.toNat ≤ 16 → ∃ t,
    runWords [0x2000#16 ||| d.setWidth 16, 0x2000#16 ||| vel.setWidth 16] s = .next t ∧
    t.block.phase = .awaitD1 ∧ t.block.status = s.block.status ∧ t.block.chan = s.block.chan ∧
    t.rsp = some { att := 0b01#2, kind := kindCode (resolve s.block.status vel), chan := s.block.chan, pitch := d, vel := vel }

/-- R119, an inference of the spec: from any state at all, a status byte and two data bytes complete as the event they
spell. -/
def Obligations.StatusByteResynchronises : Prop :=
  ∀ (b : Byte) (d vel : BitVec 7) (s : State), 0x80 ≤ b.toNat → b.toNat ≤ 0xEF → ∃ t r,
    runWords [0x2000#16 ||| b.setWidth 16, 0x2000#16 ||| d.setWidth 16, 0x2000#16 ||| vel.setWidth 16] s = .next t ∧
    t.rsp = some r ∧ r.att = 0b01#2 ∧ r.chan.toNat = b.toNat % 16 + 1 ∧ r.pitch = d ∧ r.vel = vel ∧
    r.kind = kindCode (resolve (b &&& 0xF0#8) vel) ∧ t.block.phase = .awaitD1

/-- R136 and R128, inferences of the spec: the transition table of DecoderFeed, for every byte, 0xF8 included. -/
def Obligations.DecoderTransitionTable : Prop :=
  ∀ (b : Byte) (s : Block),
    (0xF0 ≤ b.toNat → decoderFeed b s = (.none, s)) ∧
    (0x80 ≤ b.toNat → b.toNat ≤ 0xEF → (decoderFeed b s).1 = .none ∧ (decoderFeed b s).2.phase = .awaitD1 ∧
      (decoderFeed b s).2.status = b &&& 0xF0#8 ∧ (decoderFeed b s).2.chan.toNat = b.toNat % 16 + 1 ∧
      (decoderFeed b s).2.d1 = s.d1) ∧
    (b.toNat ≤ 0x7F → (decoderFeed b s).2.status = s.status ∧ (decoderFeed b s).2.chan = s.chan ∧
      (s.phase = .awaitD1 → (decoderFeed b s).1 = .none ∧ (decoderFeed b s).2.phase = .awaitD2 ∧
        (decoderFeed b s).2.d1.toNat = b.toNat) ∧
      (s.phase = .awaitD2 → (decoderFeed b s).2.phase = .awaitD1 ∧ (decoderFeed b s).2.d1 = s.d1 ∧
        ((∃ e, (decoderFeed b s).1 = .event e) ↔ 1 ≤ s.chan.toNat ∧ s.chan.toNat ≤ 16) ∧
        ((decoderFeed b s).1 = .error ↔ ¬ (1 ≤ s.chan.toNat ∧ s.chan.toNat ≤ 16)))) ∧
    sameDivider s (decoderFeed b s).2 ∧ (decoderFeed b s).2.syncSeen = s.syncSeen ∧ sameGrids s (decoderFeed b s).2

/-! ### System bytes -/

/-- R117, R120 to R127: BYTE.SYS_F0 to BYTE.SYS_F7. -/
def Obligations.SystemCommonBytesAreNoOps : Prop :=
  rowIsNoOp 0x20F0#16 .sysF0 ∧ rowIsNoOp 0x20F1#16 .sysF1 ∧ rowIsNoOp 0x20F2#16 .sysF2 ∧ rowIsNoOp 0x20F3#16 .sysF3 ∧
  rowIsNoOp 0x20F4#16 .sysF4 ∧ rowIsNoOp 0x20F5#16 .sysF5 ∧ rowIsNoOp 0x20F6#16 .sysF6 ∧ rowIsNoOp 0x20F7#16 .sysF7

/-- R117, R129 to R135: BYTE.SYS_F9 to BYTE.SYS_FF. -/
def Obligations.RealTimeBytesAreNoOps : Prop :=
  rowIsNoOp 0x20F9#16 .sysF9 ∧ rowIsNoOp 0x20FA#16 .sysFA ∧ rowIsNoOp 0x20FB#16 .sysFB ∧ rowIsNoOp 0x20FC#16 .sysFC ∧
  rowIsNoOp 0x20FD#16 .sysFD ∧ rowIsNoOp 0x20FE#16 .sysFE ∧ rowIsNoOp 0x20FF#16 .sysFF

/-- R189: NOP, and in particular it does not clear SYNC_SEEN. -/
def Obligations.NopChangesNothing : Prop := rowIsNoOp 0x0000#16 .nop

/-- R118 and R184, inferences of the spec, and R84: bytes 0xF0–0xFF, the clock byte among them, may stand anywhere in a
stream. Taking them out leaves the decoder registers and every cell as they were. -/
def Obligations.SystemBytesDoNotDisturbMessages : Prop :=
  ∀ (ws : List Word) (s t : State), runWords ws s = .next t → ∃ u,
    runWords (ws.filter (fun w => !isSystemWord w)) s = .next u ∧ sameDecoder u.block t.block ∧ sameGrids u.block t.block

/-! ### The clock divider and the sync latch -/

/-- R181, R183: BYTE.CLOCK. The three cases of ClockStep, with THRESH = 16/SUBDIV − 1; on a pulse the latch is set and
`sync` is 1; the decoder and the grids are unchanged. -/
def Obligations.ClockByteStepsTheDivider : Prop :=
  ∀ s : State, ∃ t, decode s.block.phase s.cfg.hasSweep 0x20F8#16 = .ok .clock ∧ exec .clock s = .next t ∧
    sameDecoder s.block t.block ∧ sameGrids s.block t.block ∧ sameHostSide s t ∧
    (s.block.c1 ≠ 3#2 → t.block.c1.toNat = s.block.c1.toNat + 1 ∧ t.block.c2 = s.block.c2 ∧
    t.block.syncSeen = s.block.syncSeen ∧ t.rsp = some Response.zero) ∧
    (s.block.c1 = 3#2 → s.block.c2.toNat ≠ 16 / subdivision s.cfg.subdiv - 1 →
      t.block.c1 = 0#2 ∧ t.block.c2 = s.block.c2 + 1#4 ∧ t.block.syncSeen = s.block.syncSeen ∧ t.rsp = some Response.zero) ∧
    (s.block.c1 = 3#2 → s.block.c2.toNat = 16 / subdivision s.cfg.subdiv - 1 →
      t.block.c1 = 0#2 ∧ t.block.c2 = 0#4 ∧ t.block.syncSeen = true ∧ t.rsp = some { sync := 1#1 })

/-- The one-step form of the period law R182, an inference of the spec: C2·4 + C1 counts clock bytes modulo 4·N, and `sync`
is 1 exactly when it comes round to 0. -/
def Obligations.ClockByteCountsModuloThePeriod : Prop :=
  ∀ s : State, s.block.c2.toNat ≤ 16 / subdivision s.cfg.subdiv - 1 → ∃ t r,
    exec .clock s = .next t ∧ t.rsp = some r ∧
    t.block.c2.toNat * 4 + t.block.c1.toNat =
      (s.block.c2.toNat * 4 + s.block.c1.toNat + 1) % (4 * (16 / subdivision s.cfg.subdiv)) ∧
    (r.sync = 1#1 ↔ (s.block.c2.toNat * 4 + s.block.c1.toNat + 1) % (4 * (16 / subdivision s.cfg.subdiv)) = 0)

/-- R182, an inference of the spec: the period law. After any commands accepted since reset, k of them clock bytes, C1 = k mod
4 and C2 = ⌊k/4⌋ mod N, and the next clock byte, the (k+1)-th, gives sync = 1 exactly when k + 1 is a multiple of 4·N. -/
def Obligations.ClockPeriodLaw : Prop :=
  ∀ (cfg : Config) (ws : List Word) (s : State), runWords ws (State.resetWith cfg) = .next s →
    s.block.c1.toNat = ws.count clockWord % 4 ∧
    s.block.c2.toNat = ws.count clockWord / 4 % (16 / subdivision cfg.subdiv) ∧
    ∃ t r, acceptWord clockWord s = .next t ∧ t.rsp = some r ∧
      (r.sync = 1#1 ↔ 4 * (16 / subdivision cfg.subdiv) ∣ ws.count clockWord + 1)

/-- R186: a pulse sets SYNC_SEEN in its own step, and nothing else sets it. -/
def Obligations.OnlyAPulseSetsTheLatch : Prop :=
  ∀ (i : Instr) (s t : State), exec i s = .next t →
    (syncFired t → i = .clock ∧ t.block.syncSeen = true) ∧
    (s.block.syncSeen = false → t.block.syncSeen = true → i = .clock ∧ syncFired t)

/-- R187: POLL answers the latch as it was, in bit 0, and clears it; nothing else changes. -/
def Obligations.PollReturnsAndClearsTheLatch : Prop :=
  ∀ s : State, ∃ t, decode s.block.phase s.cfg.hasSweep 0x6000#16 = .ok .poll ∧ exec .poll s = .next t ∧
    t.rsp = some { data := if s.block.syncSeen then 1#8 else 0#8 } ∧ t.block.syncSeen = false ∧
    sameDecoder s.block t.block ∧ sameDivider s.block t.block ∧ sameGrids s.block t.block ∧ sameHostSide s t

/-- R188, an inference of the spec: the coalescing law. Between one POLL, or reset, and the next, any number of pulses is
reported as one: POLL gives 1 exactly when some clock byte between gave sync = 1, and else 0. -/
def Obligations.PollCoalescesPulses : Prop :=
  ∀ (ws : List Word) (s₀ s : State),
    ((∃ u, acceptWord pollWord u = .next s₀) ∨ ∃ cfg, s₀ = State.resetWith cfg) →
    pollWord ∉ ws → runWords ws s₀ = .next s → ∃ t r,
      acceptWord pollWord s = .next t ∧ t.rsp = some r ∧ (r.data = 0#8 ∨ r.data = 1#8) ∧
      (r.data = 1#8 ↔ ∃ pre post m, ws = pre ++ clockWord :: post ∧
        runWords (pre ++ [clockWord]) s₀ = .next m ∧ syncFired m)

/-! ### The note table -/

/-- R51: the flat address of channel c and pitch p is (c − 1)·128 + p, in 0..2047, and no two cells share one. -/
def Obligations.FlatAddressOfACell : Prop :=
  (∀ (c : BitVec 5) (p : BitVec 7), 1 ≤ c.toNat → c.toNat ≤ 16 →
    (cellAddr (rowOf c) p).toNat = (c.toNat - 1) * 128 + p.toNat ∧ (cellAddr (rowOf c) p).toNat ≤ 2047) ∧
  (∀ (row row' : BitVec 4) (p p' : BitVec 7), cellAddr row p = cellAddr row' p' → row = row' ∧ p = p')

/-- R53: a grid write replaces the one cell, in the one grid, and no other cell changes, nor anything but that grid. -/
def Obligations.GridWriteReplacesOneCell : Prop :=
  ∀ (g : Grid) (a : BitVec 11) (v : Byte) (b : Block),
    memRead g a (memWrite g a v b) = v ∧ sameGridBut g a b (memWrite g a v b) ∧
    (∀ h : Grid, h ≠ g → sameGrid h b (memWrite g a v b)) ∧
    sameDecoder b (memWrite g a v b) ∧ sameDivider b (memWrite g a v b) ∧ (memWrite g a v b).syncSeen = b.syncSeen

/-- R154: SWEEP zeroes ACCUM where ACTIVE is 0 and leaves everything else; with HAS_SWEEP = false it is refused. -/
def Obligations.SweepZeroesSilentAccum : Prop :=
  ∀ s : State,
    (s.cfg.hasSweep = true → ∃ t, decode s.block.phase s.cfg.hasSweep 0x4000#16 = .ok .sweep ∧ exec .sweep s = .next t ∧
      (∀ a : BitVec 11, memRead .accum a t.block = if memRead .active a s.block = 0#8 then 0#8 else memRead .accum a s.block) ∧
      sameGrid .active s.block t.block ∧ sameDecoder s.block t.block ∧ sameDivider s.block t.block ∧
      t.block.syncSeen = s.block.syncSeen ∧ sameHostSide s t ∧
      t.rsp = some Response.zero) ∧
    (s.cfg.hasSweep = false → decode s.block.phase s.cfg.hasSweep 0x4000#16 = .error .sweepAbsent ∧
      exec .sweep s = .refused .sweepAbsent)

/-- R154's loop over the 2048 addresses, as the spec writes it, leaves the very list the model's one pass leaves. -/
def Obligations.SweepIsTheLoopOverAllCells : Prop :=
  ∀ (active accum : Memory), accum.wf = true → sweptAccum active accum = sweepLoop active 2048 accum

/-- R157, an inference of the spec: a second SWEEP with no event between changes nothing at all. -/
def Obligations.SweepIsIdempotent : Prop :=
  ∀ s t : State, exec .sweep s = .next t → exec .sweep t = .next t

/-- R158, an inference of the spec: of all commands only SWEEP makes a non-zero ACCUM cell 0, and only where ACTIVE is 0. -/
def Obligations.OnlySweepClearsAccum : Prop :=
  ∀ (i : Instr) (s t : State) (a : BitVec 11), exec i s = .next t →
    memRead .accum a s.block ≠ 0#8 → memRead .accum a t.block = 0#8 → i = .sweep ∧ memRead .active a s.block = 0#8

/-- R159, an inference of the spec: a Note-On of velocity 0 and a Note-Off of any velocity have the same effect on the
table: the cell of ACTIVE becomes 0. -/
def Obligations.NoteOnOfVelocityZeroIsANoteOff : Prop :=
  ∀ (vel : BitVec 7) (s : State), s.block.phase = .awaitD2 → 1 ≤ s.block.chan.toNat → s.block.chan.toNat ≤ 16 → ∃ t u,
    exec (.data2 0#7) { s with block.status := 0x90#8 } = .next t ∧
    exec (.data2 vel) { s with block.status := 0x80#8 } = .next u ∧
    (∀ (g : Grid) (a : BitVec 11), memRead g a t.block = memRead g a u.block) ∧
    memRead .active (BitVec.ofNat 11 ((s.block.chan.toNat - 1) * 128 + s.block.d1.toNat)) t.block = 0#8

/-- R155: READ_ACTIVE answers the cell at row·128 + p, at most 127 in a state that meets the invariant (R43), and
changes nothing. -/
def Obligations.ReadActiveAnswersTheCell : Prop :=
  ∀ (row : BitVec 4) (p : BitVec 7) (s : State), ∃ t,
    decode s.block.phase s.cfg.hasSweep (BitVec.ofNat 16 (0x8000 + row.toNat * 128 + p.toNat)) = .ok (.readActive row p) ∧
    exec (.readActive row p) s = .next t ∧ sameBlock s.block t.block ∧ sameHostSide s t ∧
    t.rsp = some { data := memRead .active (BitVec.ofNat 11 (row.toNat * 128 + p.toNat)) s.block } ∧
    (s.Inv → (memRead .active (BitVec.ofNat 11 (row.toNat * 128 + p.toNat)) s.block).toNat ≤ 127)

/-- R156: READ_ACCUM answers the cell at row·128 + p, at most 127 in a state that meets the invariant (R43), and
changes nothing. -/
def Obligations.ReadAccumAnswersTheCell : Prop :=
  ∀ (row : BitVec 4) (p : BitVec 7) (s : State), ∃ t,
    decode s.block.phase s.cfg.hasSweep (BitVec.ofNat 16 (0xA000 + row.toNat * 128 + p.toNat)) = .ok (.readAccum row p) ∧
    exec (.readAccum row p) s = .next t ∧ sameBlock s.block t.block ∧ sameHostSide s t ∧
    t.rsp = some { data := memRead .accum (BitVec.ofNat 11 (row.toNat * 128 + p.toNat)) s.block } ∧
    (s.Inv → (memRead .accum (BitVec.ofNat 11 (row.toNat * 128 + p.toNat)) s.block).toNat ≤ 127)

/-- The source's property W3 of `95_test_vectors.md`: from any state, the message NOTE_ON c, p, v with v > 0 leaves v in both
grids at (c, p), and every other cell as it was. -/
def Obligations.NoteOnMessageSoundsItsCell : Prop :=
  ∀ (c p v : Nat) (s : State), 1 ≤ c → c ≤ 16 → p ≤ 127 → 1 ≤ v → v ≤ 127 → ∃ ws t,
    assemble (.noteOn c p v) = some ws ∧ runWords ws s = .next t ∧
    (∀ g : Grid, memRead g (BitVec.ofNat 11 ((c - 1) * 128 + p)) t.block = BitVec.ofNat 8 v ∧
      sameGridBut g (BitVec.ofNat 11 ((c - 1) * 128 + p)) s.block t.block)

/-- R45, an inference of the spec from the source's invariant: a non-zero ACCUM cell is one whose ACTIVE cell was non-zero
after some command since reset, and no SWEEP since then found it 0. -/
def Obligations.AccumRemembersASoundingNote : Prop :=
  ∀ (cfg : Config) (ws : List Word) (s : State) (a : BitVec 11), runWords ws (State.resetWith cfg) = .next s →
    memRead .accum a s.block ≠ 0#8 → ∃ pre post m, ws = pre ++ post ∧ runWords pre (State.resetWith cfg) = .next m ∧
      memRead .active a m.block ≠ 0#8 ∧
      ∀ mid rest u, post = mid ++ sweepWord :: rest →
        runWords (pre ++ mid) (State.resetWith cfg) = .next u → memRead .active a u.block ≠ 0#8

/-! ### The whole machine -/

/-- The invariants R38, R39, R42, R43 and R44, inferences of the spec, and the canonical form of the grids, hold at reset on
every build. -/
def Obligations.InvariantHoldsAtReset : Prop := ∀ cfg : Config, (State.resetWith cfg).Inv

/-- The same invariants are kept by every step, a reset edge and an idle edge among them. -/
def Obligations.EveryStepKeepsTheInvariant : Prop := ∀ s t : State, s.Inv → step s = .next t → t.Inv

/-- The "written by" column of R20's table, with R54: which rows may change which state. No row changes the parameters or
the host's further inputs. -/
def Obligations.StateIsWrittenOnlyByItsRows : Prop :=
  ∀ (i : Instr) (s t : State), exec i s = .next t →
    (t.block.status ≠ s.block.status ∨ t.block.chan ≠ s.block.chan → isStatusWord (encode i) = true) ∧
    (t.block.d1 ≠ s.block.d1 → ∃ d, i = .data1 d) ∧
    (t.block.phase ≠ s.block.phase → isStatusWord (encode i) = true ∨ (∃ d, i = .data1 d) ∨ ∃ vel, i = .data2 vel) ∧
    (t.block.c1 ≠ s.block.c1 ∨ t.block.c2 ≠ s.block.c2 → i = .clock) ∧
    (t.block.syncSeen ≠ s.block.syncSeen → i = .clock ∨ i = .poll) ∧
    ((∃ a, memRead .active a t.block ≠ memRead .active a s.block) → ∃ vel, i = .data2 vel) ∧
    ((∃ a, memRead .accum a t.block ≠ memRead .accum a s.block) → (∃ vel, i = .data2 vel) ∨ i = .sweep) ∧
    sameHostSide s t

/-- R254: no step, a reset edge among them, changes SUBDIV or HAS_SWEEP. -/
def Obligations.ParametersNeverChange : Prop := ∀ s t : State, step s = .next t → t.cfg = s.cfg

/-- R26: no command but BYTE reads the decoder registers. Two states that differ only in them answer every run of other
commands alike. -/
def Obligations.OtherCommandsDoNotSeeTheDecoder : Prop :=
  ∀ (ws : List Word) (s t s' : State), (∀ w ∈ ws, cmdOf w ≠ 0b001#3) →
    sameDivider s.block t.block → t.block.syncSeen = s.block.syncSeen → t.block.active = s.block.active →
    t.block.accum = s.block.accum → sameHostSide s t →
    runWords ws s = .next s' → ∃ t', runWords ws t = .next t' ∧
      (ws ≠ [] → t'.rsp = s'.rsp) ∧ sameDivider s'.block t'.block ∧ t'.block.syncSeen = s'.block.syncSeen ∧
      t'.block.active = s'.block.active ∧
      t'.block.accum = s'.block.accum ∧ sameDecoder s.block s'.block ∧ sameDecoder t.block t'.block

/-- R227, an inference of the spec, for every instruction: it answers a next state exactly when its table row's condition
holds, and is refused otherwise (the refusal of a row outside its condition is the model's, log entry 8). -/
def Obligations.AdmittedInstructionsAnswer : Prop :=
  ∀ (i : Instr) (s : State),
    (i.wellFormed s.block.phase s.cfg.hasSweep = true → ∃ t, exec i s = .next t) ∧
    (i.wellFormed s.block.phase s.cfg.hasSweep = false → ∃ r, exec i s = .refused r)

/-- R227, an inference of the spec, over runs: a host that sends no reserved word is never stopped, from any state. -/
def Obligations.UnreservedStreamsNeverStop : Prop :=
  ∀ (ws : List Word) (s : State), (∀ w ∈ ws, reservedWord s.cfg.hasSweep w = false) → ∃ t, runWords ws s = .next t

/-- R74, R75, R76: the response fields each command sets; every other field is 0; `att` and `kind` are never 0b11. -/
def Obligations.ResponseFieldsByCommand : Prop :=
  ((attentionResponse .none).att = 0b00#2 ∧ (∀ e, (attentionResponse (.event e)).att = 0b01#2) ∧
    (attentionResponse .error).att = 0b10#2 ∧ kindCode .noteOff = 0b00#2 ∧ kindCode .noteOn = 0b01#2 ∧
    kindCode .other = 0b10#2) ∧
  ∀ (i : Instr) (s t : State), exec i s = .next t → ∃ r, t.rsp = some r ∧
    r.att ≠ 0b11#2 ∧ r.kind ≠ 0b11#2 ∧ (r.att ≠ 0b01#2 → r.kind = 0b00#2) ∧
    (i = .nop ∨ i = .sweep → r = {}) ∧
    (i = .poll → r = { data := (BitVec.ofBool s.block.syncSeen).setWidth 8 }) ∧
    (∀ row p, i = .readActive row p → r = { data := memRead .active (cellAddr row p) s.block }) ∧
    (∀ row p, i = .readAccum row p → r = { data := memRead .accum (cellAddr row p) s.block }) ∧
    (i = .clock → r = { sync := r.sync }) ∧
    (isSystemWord (encode i) = true → i ≠ .clock → r = {}) ∧
    (cmdOf (encode i) = 0b001#3 → (byteOf (encode i)).toNat < 0xF0 →
      r = { att := r.att, kind := r.kind, chan := r.chan, pitch := r.pitch, vel := r.vel } ∧
      (r.att ≠ 0b01#2 → r = { att := r.att }))

/-- R229, an inference of the spec: no step answers two of EVENT, ERROR and sync = 1, and only a data byte gives EVENT or
ERROR, only a clock byte sync. -/
def Obligations.EventErrorAndSyncExclude : Prop :=
  ∀ (i : Instr) (s t : State) (r : Response), exec i s = .next t → t.rsp = some r →
    (r.att ≠ 0b00#2 → (∃ vel, i = .data2 vel) ∧ r.sync = 0#1) ∧
    (r.sync = 1#1 → i = .clock ∧ r.att = 0b00#2)

/-! ### Boot and the assembler -/

/-- R11: the domain of SUBDIV and the values derived from it; any other value is refused. -/
def Obligations.BootAcceptsExactlyTheFiveSubdivisions : Prop :=
  (subdivision .whole = 1 ∧ subdivision .half = 2 ∧ subdivision .quarter = 4 ∧ subdivision .eighth = 8 ∧
    subdivision .sixteenth = 16) ∧
  (∀ (n : Nat) (hasSweep : Bool), n ∈ [1, 2, 4, 8, 16] → ∃ cfg, boot n hasSweep = .next (State.resetWith cfg) ∧
    cfg.hasSweep = hasSweep ∧ subdivision cfg.subdiv = n ∧ wrapsPerSync cfg.subdiv = 16 / n ∧
    (thresh cfg.subdiv).toNat = 16 / n - 1) ∧
  (∀ (n : Nat) (hasSweep : Bool), n ∉ [1, 2, 4, 8, 16] → boot n hasSweep = .refused .subdivOutsideDomain)

/-- R87: the words of the assembler's commands are the words of the rows they name, with the 1-based channel; an operand out
of range assembles to nothing. -/
def Obligations.AssemblerWordsAreTheRowsTheyName : Prop :=
  (∀ (ph : Phase) (hasSweep : Bool) (c p : Nat), 1 ≤ c → c ≤ 16 → p ≤ 127 →
    ∃ w w', assemble (.readActive c p) = some [w] ∧ assemble (.readAccum c p) = some [w'] ∧
      decode ph hasSweep w = .ok (.readActive (BitVec.ofNat 4 (c - 1)) (BitVec.ofNat 7 p)) ∧
      decode ph hasSweep w' = .ok (.readAccum (BitVec.ofNat 4 (c - 1)) (BitVec.ofNat 7 p))) ∧
  (∀ c p : Nat, ¬ (1 ≤ c ∧ c ≤ 16 ∧ p ≤ 127) → assemble (.readActive c p) = none ∧ assemble (.readAccum c p) = none) ∧
  (∀ b : Nat, (b ≤ 0xFF → ∃ w, assemble (.byte b) = some [w] ∧ cmdOf w = 0b001#3 ∧ w.toNat = 0x2000 + b) ∧
    (0xFF < b → assemble (.byte b) = none)) ∧
  assemble .nop = some [0x0000#16] ∧ assemble .sweep = some [0x4000#16] ∧ assemble .poll = some [0x6000#16]

/-- R88: the pseudo-commands expand to BYTE commands; an operand out of range is an error, not a command. -/
def Obligations.PseudoCommandsExpandToBytes : Prop :=
  (∀ c p v : Nat, 1 ≤ c → c ≤ 16 → p ≤ 127 → v ≤ 127 → ∃ on off rs,
    assemble (.noteOn c p v) = some on ∧ on.map BitVec.toNat = [0x2090 + (c - 1), 0x2000 + p, 0x2000 + v] ∧
    assemble (.noteOff c p v) = some off ∧ off.map BitVec.toNat = [0x2080 + (c - 1), 0x2000 + p, 0x2000 + v] ∧
    assemble (.runningStatus p v) = some rs ∧ rs.map BitVec.toNat = [0x2000 + p, 0x2000 + v]) ∧
  (∀ c p v : Nat, ¬ (1 ≤ c ∧ c ≤ 16 ∧ p ≤ 127 ∧ v ≤ 127) →
    assemble (.noteOn c p v) = none ∧ assemble (.noteOff c p v) = none) ∧
  (∀ p v : Nat, ¬ (p ≤ 127 ∧ v ≤ 127) → assemble (.runningStatus p v) = none) ∧
  (∀ n : Nat, assemble (.clocks n) = some (List.replicate n clockWord)) ∧
  (∀ bs : List Nat, ((∀ b ∈ bs, b ≤ 0xFF) → ∃ ws, assemble (.feed bs) = some ws ∧
      ws.map BitVec.toNat = bs.map (0x2000 + ·)) ∧
    ((∃ b ∈ bs, 0xFF < b) → assemble (.feed bs) = none))
end

