-- ==== Sys2Proof/Laws/State.lean ====
section
/-! SUPPORT. The fields of the block after each named update, what each grid cell reads as after it, and the fields of the
system around it. -/

namespace Sys2Proof.Machine

variable (b : Block) (s : State)

/-! ### latchStatus -/

@[simp] theorem latchStatus_status (x : Byte) : (latchStatus x b).status = statusOf x := rfl
@[simp] theorem latchStatus_chan (x : Byte) : (latchStatus x b).chan = channelOf x := rfl
@[simp] theorem latchStatus_d1 (x : Byte) : (latchStatus x b).d1 = b.d1 := rfl
@[simp] theorem latchStatus_phase (x : Byte) : (latchStatus x b).phase = .awaitD1 := rfl
@[simp] theorem latchStatus_c1 (x : Byte) : (latchStatus x b).c1 = b.c1 := rfl
@[simp] theorem latchStatus_c2 (x : Byte) : (latchStatus x b).c2 = b.c2 := rfl
@[simp] theorem latchStatus_syncSeen (x : Byte) : (latchStatus x b).syncSeen = b.syncSeen := rfl
@[simp] theorem latchStatus_active (x : Byte) : (latchStatus x b).active = b.active := rfl
@[simp] theorem latchStatus_accum (x : Byte) : (latchStatus x b).accum = b.accum := rfl
@[simp] theorem memRead_latchStatus (g : Grid) (a : BitVec 11) (x : Byte) : memRead g a (latchStatus x b) = memRead g a b := by
  cases g <;> rfl

/-! ### storeFirst -/

@[simp] theorem storeFirst_status (d : BitVec 7) : (storeFirst d b).status = b.status := rfl
@[simp] theorem storeFirst_chan (d : BitVec 7) : (storeFirst d b).chan = b.chan := rfl
@[simp] theorem storeFirst_d1 (d : BitVec 7) : (storeFirst d b).d1 = d := rfl
@[simp] theorem storeFirst_phase (d : BitVec 7) : (storeFirst d b).phase = .awaitD2 := rfl
@[simp] theorem storeFirst_c1 (d : BitVec 7) : (storeFirst d b).c1 = b.c1 := rfl
@[simp] theorem storeFirst_c2 (d : BitVec 7) : (storeFirst d b).c2 = b.c2 := rfl
@[simp] theorem storeFirst_syncSeen (d : BitVec 7) : (storeFirst d b).syncSeen = b.syncSeen := rfl
@[simp] theorem storeFirst_active (d : BitVec 7) : (storeFirst d b).active = b.active := rfl
@[simp] theorem storeFirst_accum (d : BitVec 7) : (storeFirst d b).accum = b.accum := rfl
@[simp] theorem memRead_storeFirst (g : Grid) (a : BitVec 11) (d : BitVec 7) : memRead g a (storeFirst d b) = memRead g a b := by
  cases g <;> rfl

/-! ### awaitFirst -/

@[simp] theorem awaitFirst_status : (awaitFirst b).status = b.status := rfl
@[simp] theorem awaitFirst_chan : (awaitFirst b).chan = b.chan := rfl
@[simp] theorem awaitFirst_d1 : (awaitFirst b).d1 = b.d1 := rfl
@[simp] theorem awaitFirst_phase : (awaitFirst b).phase = .awaitD1 := rfl
@[simp] theorem awaitFirst_c1 : (awaitFirst b).c1 = b.c1 := rfl
@[simp] theorem awaitFirst_c2 : (awaitFirst b).c2 = b.c2 := rfl
@[simp] theorem awaitFirst_syncSeen : (awaitFirst b).syncSeen = b.syncSeen := rfl
@[simp] theorem awaitFirst_active : (awaitFirst b).active = b.active := rfl
@[simp] theorem awaitFirst_accum : (awaitFirst b).accum = b.accum := rfl
@[simp] theorem memRead_awaitFirst (g : Grid) (a : BitVec 11) : memRead g a (awaitFirst b) = memRead g a b := by
  cases g <;> rfl

/-! ### latchSync -/

@[simp] theorem latchSync_status (q : Bool) : (latchSync q b).status = b.status := rfl
@[simp] theorem latchSync_chan (q : Bool) : (latchSync q b).chan = b.chan := rfl
@[simp] theorem latchSync_d1 (q : Bool) : (latchSync q b).d1 = b.d1 := rfl
@[simp] theorem latchSync_phase (q : Bool) : (latchSync q b).phase = b.phase := rfl
@[simp] theorem latchSync_c1 (q : Bool) : (latchSync q b).c1 = b.c1 := rfl
@[simp] theorem latchSync_c2 (q : Bool) : (latchSync q b).c2 = b.c2 := rfl
@[simp] theorem latchSync_syncSeen (q : Bool) : (latchSync q b).syncSeen = (q || b.syncSeen) := rfl
@[simp] theorem latchSync_active (q : Bool) : (latchSync q b).active = b.active := rfl
@[simp] theorem latchSync_accum (q : Bool) : (latchSync q b).accum = b.accum := rfl
@[simp] theorem memRead_latchSync (g : Grid) (a : BitVec 11) (q : Bool) : memRead g a (latchSync q b) = memRead g a b := by
  cases g <;> rfl

/-! ### clearSync -/

@[simp] theorem clearSync_status : (clearSync b).status = b.status := rfl
@[simp] theorem clearSync_chan : (clearSync b).chan = b.chan := rfl
@[simp] theorem clearSync_d1 : (clearSync b).d1 = b.d1 := rfl
@[simp] theorem clearSync_phase : (clearSync b).phase = b.phase := rfl
@[simp] theorem clearSync_c1 : (clearSync b).c1 = b.c1 := rfl
@[simp] theorem clearSync_c2 : (clearSync b).c2 = b.c2 := rfl
@[simp] theorem clearSync_syncSeen : (clearSync b).syncSeen = false := rfl
@[simp] theorem clearSync_active : (clearSync b).active = b.active := rfl
@[simp] theorem clearSync_accum : (clearSync b).accum = b.accum := rfl
@[simp] theorem memRead_clearSync (g : Grid) (a : BitVec 11) : memRead g a (clearSync b) = memRead g a b := by
  cases g <;> rfl

/-! ### sweepGrids -/

@[simp] theorem sweepGrids_status : (sweepGrids b).status = b.status := rfl
@[simp] theorem sweepGrids_chan : (sweepGrids b).chan = b.chan := rfl
@[simp] theorem sweepGrids_d1 : (sweepGrids b).d1 = b.d1 := rfl
@[simp] theorem sweepGrids_phase : (sweepGrids b).phase = b.phase := rfl
@[simp] theorem sweepGrids_c1 : (sweepGrids b).c1 = b.c1 := rfl
@[simp] theorem sweepGrids_c2 : (sweepGrids b).c2 = b.c2 := rfl
@[simp] theorem sweepGrids_syncSeen : (sweepGrids b).syncSeen = b.syncSeen := rfl
@[simp] theorem sweepGrids_active : (sweepGrids b).active = b.active := rfl
@[simp] theorem sweepGrids_accum : (sweepGrids b).accum = sweptAccum b.active b.accum := rfl

/-! ### memWrite -/

@[simp] theorem memWrite_status (g : Grid) (a : BitVec 11) (v : Byte) : (memWrite g a v b).status = b.status := by
  cases g <;> rfl
@[simp] theorem memWrite_chan (g : Grid) (a : BitVec 11) (v : Byte) : (memWrite g a v b).chan = b.chan := by
  cases g <;> rfl
@[simp] theorem memWrite_d1 (g : Grid) (a : BitVec 11) (v : Byte) : (memWrite g a v b).d1 = b.d1 := by
  cases g <;> rfl
@[simp] theorem memWrite_phase (g : Grid) (a : BitVec 11) (v : Byte) : (memWrite g a v b).phase = b.phase := by
  cases g <;> rfl
@[simp] theorem memWrite_c1 (g : Grid) (a : BitVec 11) (v : Byte) : (memWrite g a v b).c1 = b.c1 := by
  cases g <;> rfl
@[simp] theorem memWrite_c2 (g : Grid) (a : BitVec 11) (v : Byte) : (memWrite g a v b).c2 = b.c2 := by
  cases g <;> rfl
@[simp] theorem memWrite_syncSeen (g : Grid) (a : BitVec 11) (v : Byte) : (memWrite g a v b).syncSeen = b.syncSeen := by
  cases g <;> rfl
@[simp] theorem memWrite_active_active (a : BitVec 11) (v : Byte) :
    (memWrite .active a v b).active = memoryWrite b.active a.toNat v := rfl
@[simp] theorem memWrite_active_accum (a : BitVec 11) (v : Byte) : (memWrite .active a v b).accum = b.accum := rfl
@[simp] theorem memWrite_accum_active (a : BitVec 11) (v : Byte) : (memWrite .accum a v b).active = b.active := rfl
@[simp] theorem memWrite_accum_accum (a : BitVec 11) (v : Byte) :
    (memWrite .accum a v b).accum = memoryWrite b.accum a.toNat v := rfl

/-! ### noteTableApply -/

@[simp] theorem noteTableApply_status (e : VoiceEvent) : (noteTableApply e b).status = b.status := by
  unfold noteTableApply; split <;> simp
@[simp] theorem noteTableApply_chan (e : VoiceEvent) : (noteTableApply e b).chan = b.chan := by
  unfold noteTableApply; split <;> simp
@[simp] theorem noteTableApply_d1 (e : VoiceEvent) : (noteTableApply e b).d1 = b.d1 := by
  unfold noteTableApply; split <;> simp
@[simp] theorem noteTableApply_phase (e : VoiceEvent) : (noteTableApply e b).phase = b.phase := by
  unfold noteTableApply; split <;> simp
@[simp] theorem noteTableApply_c1 (e : VoiceEvent) : (noteTableApply e b).c1 = b.c1 := by
  unfold noteTableApply; split <;> simp
@[simp] theorem noteTableApply_c2 (e : VoiceEvent) : (noteTableApply e b).c2 = b.c2 := by
  unfold noteTableApply; split <;> simp
@[simp] theorem noteTableApply_syncSeen (e : VoiceEvent) : (noteTableApply e b).syncSeen = b.syncSeen := by
  unfold noteTableApply; split <;> simp

/-! ### clockStep -/

@[simp] theorem clockStep_status (d : Subdiv) : (clockStep d b).2.status = b.status := by
  unfold clockStep; split <;> (try split) <;> rfl
@[simp] theorem clockStep_chan (d : Subdiv) : (clockStep d b).2.chan = b.chan := by
  unfold clockStep; split <;> (try split) <;> rfl
@[simp] theorem clockStep_d1 (d : Subdiv) : (clockStep d b).2.d1 = b.d1 := by
  unfold clockStep; split <;> (try split) <;> rfl
@[simp] theorem clockStep_phase (d : Subdiv) : (clockStep d b).2.phase = b.phase := by
  unfold clockStep; split <;> (try split) <;> rfl
@[simp] theorem clockStep_syncSeen (d : Subdiv) : (clockStep d b).2.syncSeen = b.syncSeen := by
  unfold clockStep; split <;> (try split) <;> rfl
@[simp] theorem clockStep_active (d : Subdiv) : (clockStep d b).2.active = b.active := by
  unfold clockStep; split <;> (try split) <;> rfl
@[simp] theorem clockStep_accum (d : Subdiv) : (clockStep d b).2.accum = b.accum := by
  unfold clockStep; split <;> (try split) <;> rfl
@[simp] theorem memRead_clockStep (g : Grid) (a : BitVec 11) (d : Subdiv) :
    memRead g a (clockStep d b).2 = memRead g a b := by
  cases g <;> simp [memRead]

/-! ### The reset block -/

@[simp] theorem memRead_reset (g : Grid) (a : BitVec 11) : memRead g a Block.reset = 0#8 := by
  cases g <;> rfl

@[simp] theorem resetWith_block (cfg : Config) : (State.resetWith cfg).block = Block.reset := rfl
@[simp] theorem resetWith_cfg (cfg : Config) : (State.resetWith cfg).cfg = cfg := rfl
@[simp] theorem resetWith_rsp (cfg : Config) : (State.resetWith cfg).rsp = none := rfl
@[simp] theorem resetWith_stream (cfg : Config) : (State.resetWith cfg).stream = [] := rfl

/-! ### The system around the block -/

@[simp] theorem answered_block (r : Response) : (answered r b s).block = b := rfl
@[simp] theorem answered_cfg (r : Response) : (answered r b s).cfg = s.cfg := rfl
@[simp] theorem answered_rsp (r : Response) : (answered r b s).rsp = some r := rfl
@[simp] theorem answered_stream (r : Response) : (answered r b s).stream = s.stream := rfl

@[simp] theorem idle_block : (idle s).block = s.block := rfl
@[simp] theorem idle_cfg : (idle s).cfg = s.cfg := rfl
@[simp] theorem idle_rsp : (idle s).rsp = none := rfl
@[simp] theorem idle_stream : (idle s).stream = s.stream := rfl

@[simp] theorem hostReset_block : (hostReset s).block = Block.reset := rfl
@[simp] theorem hostReset_cfg : (hostReset s).cfg = s.cfg := rfl
@[simp] theorem hostReset_rsp : (hostReset s).rsp = none := rfl
@[simp] theorem hostReset_stream : (hostReset s).stream = s.stream := rfl

@[simp] theorem driveWord_block (w : Word) : (driveWord w s).block = s.block := rfl
@[simp] theorem driveWord_cfg (w : Word) : (driveWord w s).cfg = s.cfg := rfl
@[simp] theorem driveWord_rsp (w : Word) : (driveWord w s).rsp = s.rsp := rfl
@[simp] theorem driveWord_stream (w : Word) : (driveWord w s).stream = PortInput.command w :: s.stream := rfl

@[simp] theorem perform_ok (r : Response) : perform (.ok (r, b)) s = .next (answered r b s) := rfl
@[simp] theorem perform_error (e : Refusal) : perform (.error e) s = .refused e := rfl

/-- A system's step ends in a next state exactly when its block answers, and then only the block and the ports change. -/
theorem perform_next {a : Answer} {s t : State} (h : perform a s = .next t) :
    ∃ r b, a = .ok (r, b) ∧ t = answered r b s := by
  rcases a with e | ⟨r, b⟩
  · cases h
  · cases h; exact ⟨r, b, rfl, rfl⟩

end Sys2Proof.Machine
end

