-- ==== Sys2Proof/Laws/Memory.lean ====
section
/-! SUPPORT. The laws of a grid's contents: what a cell reads as after a write or a sweep, and that the canonical form
is kept. The reading laws hold of every list, canonical or not. -/

namespace Sys2Proof.Machine

/-! ### Reading -/

@[simp] theorem memoryRead_nil (a : Nat) : memoryRead [] a = 0#8 := rfl

theorem memoryRead_cons (b : Nat) (v : Byte) (m : Memory) (a : Nat) :
    memoryRead ((b, v) :: m) a = if a = b then v else memoryRead m a := rfl

/-- Keeping the cells whose address passes a test reads as 0 where the address fails it. -/
theorem memoryRead_filter (p : Nat → Bool) (m : Memory) (a : Nat) :
    memoryRead (m.filter (fun c => p c.1)) a = if p a then memoryRead m a else 0#8 := by
  induction m with
  | nil => simp
  | cons c m ih =>
    obtain ⟨b, v⟩ := c
    by_cases hb : p b = true <;> by_cases hab : a = b <;> simp_all [memoryRead_cons]

theorem memoryRead_insert (m : Memory) (a : Nat) (v : Byte) (x : Nat) :
    memoryRead (memoryInsert m a v) x = if x = a then v else memoryRead m x := by
  induction m with
  | nil => rfl
  | cons c m ih =>
    obtain ⟨b, u⟩ := c
    unfold memoryInsert
    split
    · rfl
    · split
      · subst b
        simp only [memoryRead_cons]
        split <;> rfl
      · rename_i hne
        simp only [memoryRead_cons, ih]
        by_cases hx : x = b
        · subst hx; simp [Ne.symm hne]
        · simp [hx]

/-- A write changes the cell it names and no other (R53). -/
theorem memoryRead_write (m : Memory) (a : Nat) (v : Byte) (x : Nat) :
    memoryRead (memoryWrite m a v) x = if x = a then v else memoryRead m x := by
  unfold memoryWrite
  split
  · rename_i hv
    rw [memoryRead_filter (fun b => b != a)]
    by_cases hx : x = a <;> simp [hx, hv]
  · exact memoryRead_insert m a v x

/-- After a sweep a cell of ACCUM reads as 0 where ACTIVE does, and as before elsewhere (R154). -/
theorem memoryRead_sweptAccum (active accum : Memory) (a : Nat) :
    memoryRead (sweptAccum active accum) a =
      if memoryRead active a = 0#8 then 0#8 else memoryRead accum a := by
  unfold sweptAccum
  rw [memoryRead_filter (fun b => memoryRead active b != 0#8)]
  by_cases h : memoryRead active a = 0#8 <;> simp [h]

/-! ### Cells of the block -/

theorem memRead_memWrite_same (g : Grid) (a : BitVec 11) (v : Byte) (b : Block) :
    memRead g a (memWrite g a v b) = v := by
  cases g <;> simp [memRead, memoryRead_write]

theorem memRead_memWrite_other (g : Grid) (a x : BitVec 11) (h : x ≠ a) (v : Byte) (b : Block) :
    memRead g x (memWrite g a v b) = memRead g x b := by
  have h' : ¬ x.toNat = a.toNat := fun e => h (BitVec.eq_of_toNat_eq e)
  cases g <;> simp [memRead, memoryRead_write, h']

theorem memRead_memWrite_otherGrid (g h : Grid) (a x : BitVec 11) (hg : h ≠ g) (v : Byte) (b : Block) :
    memRead h x (memWrite g a v b) = memRead h x b := by
  cases g <;> cases h <;> first | rfl | exact absurd rfl hg

theorem memRead_sweepGrids_active (a : BitVec 11) (b : Block) :
    memRead .active a (sweepGrids b) = memRead .active a b := rfl

theorem memRead_sweepGrids_accum (a : BitVec 11) (b : Block) :
    memRead .accum a (sweepGrids b) = if memRead .active a b = 0#8 then 0#8 else memRead .accum a b :=
  memoryRead_sweptAccum b.active b.accum a.toNat

/-! ### The canonical form -/

theorem wfFrom_weaken {lo hi : Nat} (h : lo ≤ hi) : ∀ {m : Memory}, wfFrom hi m = true → wfFrom lo m = true
  | [], _ => rfl
  | (a, v) :: m, hm => by
    simp only [wfFrom, Bool.and_eq_true, decide_eq_true_eq] at hm ⊢
    exact ⟨⟨⟨Nat.le_trans h hm.1.1.1, hm.1.1.2⟩, hm.1.2⟩, hm.2⟩

theorem wfFrom_filter (p : Host.Cell → Bool) (m : Memory) :
    ∀ lo, wfFrom lo m = true → wfFrom lo (m.filter p) = true := by
  induction m with
  | nil => intro lo _; rfl
  | cons c m ih =>
    obtain ⟨a, v⟩ := c
    intro lo h
    simp only [wfFrom, Bool.and_eq_true, decide_eq_true_eq] at h
    by_cases hp : p (a, v) = true
    · rw [List.filter_cons_of_pos hp]
      simp only [wfFrom, Bool.and_eq_true, decide_eq_true_eq]
      exact ⟨h.1, ih _ h.2⟩
    · rw [List.filter_cons_of_neg hp]
      exact wfFrom_weaken (by omega) (ih _ h.2)

theorem wfFrom_insert (m : Memory) (a : Nat) (v : Byte) (ha : a < gridSize) (hv : v ≠ 0#8) :
    ∀ lo, lo ≤ a → wfFrom lo m = true → wfFrom lo (memoryInsert m a v) = true := by
  induction m with
  | nil => intro lo hlo _; simp [memoryInsert, wfFrom, hlo, ha, hv]
  | cons c m ih =>
    obtain ⟨b, u⟩ := c
    intro lo hlo h
    simp only [wfFrom, Bool.and_eq_true, decide_eq_true_eq, bne_iff_ne] at h
    obtain ⟨⟨⟨hb, hb'⟩, hu⟩, hm⟩ := h
    unfold memoryInsert
    split
    · rename_i hab
      have : a + 1 ≤ b := hab
      simp [wfFrom, hlo, ha, hv, this, hb', hu, hm]
    · split
      · subst b; simp [wfFrom, hlo, ha, hv, hm]
      · rename_i hlt hne
        have := ih (b + 1) (by omega) hm
        simp [wfFrom, hb, hb', hu, this]

/-- A write to a cell of the grid keeps the canonical form. -/
theorem wf_memoryWrite (m : Memory) (a : Nat) (v : Byte) (ha : a < gridSize) (h : Memory.wf m = true) :
    Memory.wf (memoryWrite m a v) = true := by
  unfold memoryWrite
  split
  · exact wfFrom_filter _ _ _ h
  · rename_i hv
    exact wfFrom_insert m a v ha hv 0 (Nat.zero_le a) h

/-- A sweep keeps the canonical form. -/
theorem wf_sweptAccum (active accum : Memory) (h : Memory.wf accum = true) :
    Memory.wf (sweptAccum active accum) = true :=
  wfFrom_filter _ _ _ h

theorem addr_lt_gridSize (a : BitVec 11) : a.toNat < gridSize := a.isLt

/-- The grids stay canonical through a write. -/
theorem memWrite_wf (g : Grid) (a : BitVec 11) (v : Byte) (b : Block)
    (h₁ : b.active.wf = true) (h₂ : b.accum.wf = true) :
    (memWrite g a v b).active.wf = true ∧ (memWrite g a v b).accum.wf = true := by
  cases g
  · exact ⟨wf_memoryWrite _ _ _ (addr_lt_gridSize a) h₁, h₂⟩
  · exact ⟨h₁, wf_memoryWrite _ _ _ (addr_lt_gridSize a) h₂⟩

/-- Reset memory is canonical. -/
theorem reset_wf : State.reset.block.active.wf = true ∧ State.reset.block.accum.wf = true := ⟨rfl, rfl⟩

/-- A listed cell of a canonical list is what its address reads as, and is not 0. -/
theorem memoryRead_of_mem_wf (m : Memory) : ∀ lo, wfFrom lo m = true → ∀ c ∈ m,
    lo ≤ c.1 ∧ memoryRead m c.1 = c.2 ∧ c.2 ≠ 0#8 ∧ c.1 < gridSize := by
  induction m with
  | nil => intro _ _ c hc; cases hc
  | cons d m ih =>
    obtain ⟨b, u⟩ := d
    intro lo h c hc
    simp only [wfFrom, Bool.and_eq_true, decide_eq_true_eq, bne_iff_ne] at h
    obtain ⟨⟨⟨hb, hb'⟩, hu⟩, hm⟩ := h
    rcases List.mem_cons.mp hc with rfl | hc
    · exact ⟨hb, by simp [memoryRead_cons], hu, hb'⟩
    · obtain ⟨h1, h2, h3, h4⟩ := ih (b + 1) hm c hc
      exact ⟨by omega, by rw [memoryRead_cons, if_neg (by omega), h2], h3, h4⟩

end Sys2Proof.Machine
end

