-- ==== Sys2Proof/Laws/Operands.lean ====
section
/-! SUPPORT. The operand forms and the codes, as numbers. -/

namespace Sys2Proof.Machine

theorem cellAddr_toNat (row : BitVec 4) (p : BitVec 7) : (cellAddr row p).toNat = row.toNat * 128 + p.toNat := by
  unfold cellAddr
  rw [BitVec.toNat_append, ← Nat.shiftLeft_add_eq_or_of_lt p.isLt, Nat.shiftLeft_eq]

/-- The row of a channel 1..16 is the channel less one. -/
theorem rowOf_toNat (c : BitVec 5) (h₁ : 1 ≤ c.toNat) (h₂ : c.toNat ≤ 16) : (rowOf c).toNat = c.toNat - 1 := by
  revert h₁ h₂; revert c; decide

/-- The spec's arithmetic for a cell's address is the model's concatenation (R51, R150). -/
theorem ofNat_cell (c : BitVec 5) (p : BitVec 7) (h₁ : 1 ≤ c.toNat) (h₂ : c.toNat ≤ 16) :
    BitVec.ofNat 11 ((c.toNat - 1) * 128 + p.toNat) = cellAddr (rowOf c) p := by
  apply BitVec.eq_of_toNat_eq
  have := rowOf_toNat c h₁ h₂
  have := p.isLt
  rw [cellAddr_toNat, BitVec.toNat_ofNat]
  omega

/-- A velocity that is not 0 is stored as a cell that is not 0 (R151). -/
theorem cell_ne_zero (vel : BitVec 7) (h : vel ≠ 0#7) : vel.setWidth 8 ≠ 0#8 := by
  revert h; revert vel; decide

theorem channelOf_toNat (b : Byte) : (channelOf b).toNat = b.toNat % 16 + 1 := by
  unfold channelOf
  simp only [BitVec.toNat_add, BitVec.toNat_setWidth, BitVec.extractLsb'_toNat, Nat.shiftRight_zero, BitVec.toNat_ofNat]
  omega

theorem statusOf_statusByte (hi n : BitVec 4) : statusOf (statusByte hi n) = hi ++ 0#4 := by
  revert hi n; decide

theorem channelOf_statusByte (hi n : BitVec 4) : channelOf (statusByte hi n) = n.setWidth 5 + 1#5 := by
  revert hi n; decide

theorem rangeOK_iff (c : BitVec 5) (p : BitVec 7) : rangeOK c p = true ↔ 1 ≤ c.toNat ∧ c.toNat ≤ 16 := by
  have := p.isLt
  simp only [rangeOK, decide_eq_true_eq]
  omega

theorem resolve_zero (status : BitVec 8) : resolve status 0#7 = .noteOff := by simp [resolve]

/-- Completion rule (2) says nothing that INTENT does not (R111). -/
theorem resolve_of_ne_zero (status : BitVec 8) {vel : BitVec 7} (h : vel ≠ 0#7) :
    resolve status vel = intent status := by
  unfold resolve intent
  simp only [if_neg h]
  split <;> rfl

theorem attentionResponse_none : attentionResponse .none = Response.zero := rfl

end Sys2Proof.Machine
end

