-- ==== Sys2Proof/Laws/Words.lean ====
section
/-! SUPPORT. The fields of a command word: what a word built from its fields gives back, and that every word is built so. -/

namespace Sys2Proof

theorem commandWord_toNat (c : BitVec 3) (o : BitVec 13) : (commandWord c o).toNat = c.toNat * 8192 + o.toNat := by
  unfold commandWord
  rw [show (c ++ o : BitVec 16).toNat = c.toNat <<< 13 ||| o.toNat from BitVec.toNat_append c o,
    ← Nat.shiftLeft_add_eq_or_of_lt o.isLt, Nat.shiftLeft_eq]

theorem cmdOf_toNat (w : Word) : (cmdOf w).toNat = w.toNat / 8192 := by
  have := w.isLt
  simp only [cmdOf, BitVec.extractLsb'_toNat, Nat.shiftRight_eq_div_pow]
  omega

theorem operandOf_toNat (w : Word) : (operandOf w).toNat = w.toNat % 8192 := by
  simp [operandOf, BitVec.extractLsb'_toNat]

theorem byteOf_toNat (w : Word) : (byteOf w).toNat = w.toNat % 256 := by
  simp [byteOf, BitVec.extractLsb'_toNat]

theorem rowField_toNat (w : Word) : (rowField w).toNat = w.toNat / 128 % 16 := by
  simp [rowField, BitVec.extractLsb'_toNat, Nat.shiftRight_eq_div_pow]

theorem pitchField_toNat (w : Word) : (pitchField w).toNat = w.toNat % 128 := by
  simp [pitchField, BitVec.extractLsb'_toNat]

/-- Bits 12..8 of a word, the "must be 0" field of a BYTE command. -/
theorem byteZeroField_toNat (w : Word) : (w.extractLsb' 8 5).toNat = w.toNat / 256 % 32 := by
  simp [BitVec.extractLsb'_toNat, Nat.shiftRight_eq_div_pow]

/-- Bits 12..11 of a word, the "must be 0" field of a READ command. -/
theorem readZeroField_toNat (w : Word) : (w.extractLsb' 11 2).toNat = w.toNat / 2048 % 4 := by
  simp [BitVec.extractLsb'_toNat, Nat.shiftRight_eq_div_pow]

theorem byteWord_toNat (b : Byte) : (byteWord b).toNat = 8192 + b.toNat := by
  unfold byteWord
  rw [commandWord_toNat, show (0#5 ++ b : BitVec 13).toNat = (0#5).toNat <<< 8 ||| b.toNat from BitVec.toNat_append 0#5 b]
  simp

theorem readOperand_toNat (row : BitVec 4) (p : BitVec 7) : (readOperand row p).toNat = row.toNat * 128 + p.toNat := by
  unfold readOperand
  rw [show (0#2 ++ (row ++ p) : BitVec 13).toNat = (0#2).toNat <<< 11 ||| (row ++ p).toNat from
      BitVec.toNat_append 0#2 (row ++ p),
    BitVec.toNat_append, ← Nat.shiftLeft_add_eq_or_of_lt p.isLt]
  simp [Nat.shiftLeft_eq]

@[simp] theorem cmdOf_commandWord (c : BitVec 3) (o : BitVec 13) : cmdOf (commandWord c o) = c := by
  apply BitVec.eq_of_toNat_eq
  rw [cmdOf_toNat, commandWord_toNat]
  have := o.isLt
  omega

@[simp] theorem operandOf_commandWord (c : BitVec 3) (o : BitVec 13) : operandOf (commandWord c o) = o := by
  apply BitVec.eq_of_toNat_eq
  rw [operandOf_toNat, commandWord_toNat]
  have := o.isLt
  omega

@[simp] theorem byteOf_byteWord (b : Byte) : byteOf (byteWord b) = b := by
  apply BitVec.eq_of_toNat_eq
  rw [byteOf_toNat, byteWord_toNat]
  have := b.isLt
  omega

@[simp] theorem rowField_read (c : BitVec 3) (row : BitVec 4) (p : BitVec 7) :
    rowField (commandWord c (readOperand row p)) = row := by
  apply BitVec.eq_of_toNat_eq
  rw [rowField_toNat, commandWord_toNat, readOperand_toNat]
  have := row.isLt
  have := p.isLt
  omega

@[simp] theorem pitchField_read (c : BitVec 3) (row : BitVec 4) (p : BitVec 7) :
    pitchField (commandWord c (readOperand row p)) = p := by
  apply BitVec.eq_of_toNat_eq
  rw [pitchField_toNat, commandWord_toNat, readOperand_toNat]
  have := row.isLt
  have := p.isLt
  omega

/-- Every word is its command code and its operand (R72). -/
theorem eq_commandWord (w : Word) : commandWord (cmdOf w) (operandOf w) = w := by
  apply BitVec.eq_of_toNat_eq
  rw [commandWord_toNat, cmdOf_toNat, operandOf_toNat]
  omega

/-- Clearing the low `k` bits of a word by a mask is its quotient by 2^k, scaled. -/
theorem and_highMask_toNat (w : Word) (k : Nat) (hk : k ≤ 16) :
    (w &&& BitVec.ofNat 16 (2 ^ 16 - 2 ^ k)).toNat = w.toNat / 2 ^ k * 2 ^ k := by
  have hw := w.isLt
  have hlt : 2 ^ 16 - 2 ^ k < 2 ^ 16 := by have := Nat.two_pow_pos k; omega
  rw [BitVec.toNat_and, BitVec.toNat_ofNat, Nat.mod_eq_of_lt hlt]
  apply Nat.eq_of_testBit_eq
  intro i
  have hm : (2 ^ 16 - 2 ^ k).testBit i = (decide (k ≤ i) && decide (i < 16)) := by
    have : 2 ^ 16 - 2 ^ k = (2 ^ (16 - k) - 1) * 2 ^ k := by
      rw [Nat.sub_mul, ← Nat.pow_add, Nat.sub_add_cancel hk, Nat.one_mul]
    rw [this, Nat.testBit_mul_two_pow, Nat.testBit_two_pow_sub_one]
    by_cases h : k ≤ i <;> simp [h]
    omega
  rw [Nat.testBit_and, hm, Nat.testBit_mul_two_pow, Nat.testBit_div_two_pow]
  by_cases h : k ≤ i
  · simp only [h, decide_true, Bool.true_and, Nat.sub_add_cancel h]
    by_cases h16 : i < 16
    · simp [h16]
    · have : w.toNat.testBit i = false :=
        Nat.testBit_lt_two_pow (Nat.lt_of_lt_of_le hw (Nat.pow_le_pow_right (by omega) (by omega)))
      simp [this]
  · simp [h]

/-! ### Words of the BYTE rows -/

/-- The word of a data byte, as a number. -/
theorem dataWord_toNat (d : BitVec 7) : (byteWord (0#1 ++ d)).toNat = 0x2000 + d.toNat := by
  rw [byteWord_toNat, show (0#1 ++ d : BitVec 8).toNat = (0#1).toNat <<< 7 ||| d.toNat from BitVec.toNat_append 0#1 d]
  simp

/-- The word of a status byte, as a number. -/
theorem statusWord_toNat (hi n : BitVec 4) : (byteWord (hi ++ n)).toNat = 0x2000 + hi.toNat * 16 + n.toNat := by
  rw [byteWord_toNat, show (hi ++ n : BitVec 8).toNat = hi.toNat <<< 4 ||| n.toNat from BitVec.toNat_append hi n,
    ← Nat.shiftLeft_add_eq_or_of_lt n.isLt, Nat.shiftLeft_eq, Nat.add_assoc]

/-- 0x2000 | d is the word of the data byte d (R87). -/
theorem or_dataWord (d : BitVec 7) : 0x2000#16 ||| d.setWidth 16 = byteWord (0#1 ++ d) := by
  revert d; decide

/-- 0x2000 | b is the word of the stream byte b (R87). -/
theorem or_byteWord (b : Byte) : 0x2000#16 ||| b.setWidth 16 = byteWord b := by
  revert b; decide

theorem decode_dataWord_first (hasSweep : Bool) (d : BitVec 7) :
    decode .awaitD1 hasSweep (byteWord (0#1 ++ d)) = .ok (.data1 d) := by
  cases hasSweep <;> revert d <;> decide

theorem decode_dataWord_second (hasSweep : Bool) (vel : BitVec 7) :
    decode .awaitD2 hasSweep (byteWord (0#1 ++ vel)) = .ok (.data2 vel) := by
  cases hasSweep <;> revert vel <;> decide

end Sys2Proof
end

