-- ==== Sys2Proof/Laws/Exec.lean ====
section
/-! SUPPORT. What each shared operation and the step can do, said once: one case lemma each. -/

namespace Sys2Proof.Machine

/-! ### The block's operations -/

/-- Everything ClockStep can do (R181). -/
theorem clockStep_cases (d : Subdiv) (b : Block) :
    (b.c1 = 3#2 ∧ b.c2 = thresh d ∧ clockStep d b = (true, { b with c1 := 0#2, c2 := 0#4 })) ∨
    (b.c1 = 3#2 ∧ b.c2 ≠ thresh d ∧ clockStep d b = (false, { b with c1 := 0#2, c2 := b.c2 + 1#4 })) ∨
    (b.c1 ≠ 3#2 ∧ clockStep d b = (false, { b with c1 := b.c1 + 1#2 })) := by
  unfold clockStep
  by_cases h1 : b.c1 = 3#2
  · by_cases h2 : b.c2 = thresh d
    · exact .inl ⟨h1, h2, by rw [if_pos h1, if_pos h2]⟩
    · exact .inr (.inl ⟨h1, h2, by rw [if_pos h1, if_neg h2]⟩)
  · exact .inr (.inr ⟨h1, by rw [if_neg h1]⟩)

/-- Everything a completion can do (R110): the event with its note-table effect, or the decode error. -/
theorem completeMessage_cases (vel : BitVec 7) (b : Block) :
    (rangeOK b.chan b.d1 = true ∧ completeMessage vel b =
      (attentionResponse (.event (completedEvent vel b)), noteTableApply (completedEvent vel b) (awaitFirst b))) ∨
    (rangeOK b.chan b.d1 = false ∧ completeMessage vel b = (attentionResponse .error, awaitFirst b)) := by
  unfold completeMessage
  cases h : rangeOK b.chan b.d1
  · exact .inr ⟨rfl, if_neg (by simp)⟩
  · exact .inl ⟨rfl, if_pos rfl⟩

/-- Everything an event does to the grids, by kind (R150 to R153). -/
theorem noteTableApply_cases (e : VoiceEvent) (b : Block) :
    (e.kind = .noteOn ∧ noteTableApply e b =
      memWrite .accum (cellAddr (rowOf e.chan) e.pitch) (e.vel.setWidth 8)
        (memWrite .active (cellAddr (rowOf e.chan) e.pitch) (e.vel.setWidth 8) b)) ∨
    (e.kind = .noteOff ∧ noteTableApply e b = memWrite .active (cellAddr (rowOf e.chan) e.pitch) 0#8 b) ∨
    (e.kind = .other ∧ noteTableApply e b = b) := by
  unfold noteTableApply
  cases h : e.kind <;> simp

/-- A status row latches the byte that its word carries. -/
theorem status_row (hi n : BitVec 4) (h₁ : 8 ≤ hi.toNat) (h₂ : hi.toNat ≤ 14) {b : Block} :
    ∃ x : Byte, 0x80 ≤ x.toNat ∧ x.toNat ≤ 0xEF ∧ byteWord (hi ++ n) = byteWord x ∧
      attentionResponse .none = Response.zero ∧ latchStatus (statusByte hi n) b = latchStatus x b := by
  have hx : (hi ++ n : BitVec 8).toNat = hi.toNat * 16 + n.toNat := by
    rw [BitVec.toNat_append, ← Nat.shiftLeft_add_eq_or_of_lt n.isLt, Nat.shiftLeft_eq]
  have := n.isLt
  exact ⟨hi ++ n, by omega, by omega, rfl, rfl, rfl⟩

/-! ### The block's step -/

/-- Everything a row can do when the block answers: eight shapes for the thirty rows. -/
theorem blockExec_cases {cfg : Config} {i : Instr} {b c : Block} {r : Response} (h : blockExec cfg i b = .ok (r, c)) :
    (∃ x : Byte, 0x80 ≤ x.toNat ∧ x.toNat ≤ 0xEF ∧ encode i = byteWord x ∧ r = Response.zero ∧ c = latchStatus x b) ∨
    (∃ d, i = .data1 d ∧ b.phase = .awaitD1 ∧ r = Response.zero ∧ c = storeFirst d b) ∨
    (∃ vel, i = .data2 vel ∧ b.phase = .awaitD2 ∧ (r, c) = completeMessage vel b) ∨
    ((i = .nop ∨ (isSystemWord (encode i) = true ∧ i ≠ .clock)) ∧ r = Response.zero ∧ c = b) ∨
    (i = .clock ∧ r = syncResponse (clockStep cfg.subdiv b).1 ∧
      c = latchSync (clockStep cfg.subdiv b).1 (clockStep cfg.subdiv b).2) ∨
    (i = .poll ∧ r = dataResponse (latchByte b) ∧ c = clearSync b) ∨
    (i = .sweep ∧ cfg.hasSweep = true ∧ r = Response.zero ∧ c = sweepGrids b) ∨
    ((∃ row p, i = .readActive row p ∧ r = dataResponse (memRead .active (cellAddr row p) b) ∧ c = b) ∨
     ∃ row p, i = .readAccum row p ∧ r = dataResponse (memRead .accum (cellAddr row p) b) ∧ c = b) := by
  cases i with
  | nop => cases h; exact .inr (.inr (.inr (.inl ⟨.inl rfl, rfl, rfl⟩)))
  | data1 d =>
    replace h : blockData1 d b = .ok (r, c) := h
    unfold blockData1 at h
    split at h
    · cases h; exact .inr (.inl ⟨d, rfl, ‹_›, rfl, rfl⟩)
    · cases h
  | data2 vel =>
    replace h : blockData2 vel b = .ok (r, c) := h
    unfold blockData2 at h
    split at h
    · exact .inr (.inr (.inl ⟨vel, rfl, ‹_›, (Except.ok.inj h).symm⟩))
    · cases h
  | noteOff n => cases h; exact .inl (status_row 0x8#4 n (by decide) (by decide))
  | noteOn n => cases h; exact .inl (status_row 0x9#4 n (by decide) (by decide))
  | statusA n => cases h; exact .inl (status_row 0xA#4 n (by decide) (by decide))
  | statusB n => cases h; exact .inl (status_row 0xB#4 n (by decide) (by decide))
  | statusC n => cases h; exact .inl (status_row 0xC#4 n (by decide) (by decide))
  | statusD n => cases h; exact .inl (status_row 0xD#4 n (by decide) (by decide))
  | statusE n => cases h; exact .inl (status_row 0xE#4 n (by decide) (by decide))
  | sysF0 => cases h; exact .inr (.inr (.inr (.inl ⟨.inr ⟨by decide, by decide⟩, rfl, rfl⟩)))
  | sysF1 => cases h; exact .inr (.inr (.inr (.inl ⟨.inr ⟨by decide, by decide⟩, rfl, rfl⟩)))
  | sysF2 => cases h; exact .inr (.inr (.inr (.inl ⟨.inr ⟨by decide, by decide⟩, rfl, rfl⟩)))
  | sysF3 => cases h; exact .inr (.inr (.inr (.inl ⟨.inr ⟨by decide, by decide⟩, rfl, rfl⟩)))
  | sysF4 => cases h; exact .inr (.inr (.inr (.inl ⟨.inr ⟨by decide, by decide⟩, rfl, rfl⟩)))
  | sysF5 => cases h; exact .inr (.inr (.inr (.inl ⟨.inr ⟨by decide, by decide⟩, rfl, rfl⟩)))
  | sysF6 => cases h; exact .inr (.inr (.inr (.inl ⟨.inr ⟨by decide, by decide⟩, rfl, rfl⟩)))
  | sysF7 => cases h; exact .inr (.inr (.inr (.inl ⟨.inr ⟨by decide, by decide⟩, rfl, rfl⟩)))
  | clock => cases h; exact .inr (.inr (.inr (.inr (.inl ⟨rfl, rfl, rfl⟩))))
  | sysF9 => cases h; exact .inr (.inr (.inr (.inl ⟨.inr ⟨by decide, by decide⟩, rfl, rfl⟩)))
  | sysFA => cases h; exact .inr (.inr (.inr (.inl ⟨.inr ⟨by decide, by decide⟩, rfl, rfl⟩)))
  | sysFB => cases h; exact .inr (.inr (.inr (.inl ⟨.inr ⟨by decide, by decide⟩, rfl, rfl⟩)))
  | sysFC => cases h; exact .inr (.inr (.inr (.inl ⟨.inr ⟨by decide, by decide⟩, rfl, rfl⟩)))
  | sysFD => cases h; exact .inr (.inr (.inr (.inl ⟨.inr ⟨by decide, by decide⟩, rfl, rfl⟩)))
  | sysFE => cases h; exact .inr (.inr (.inr (.inl ⟨.inr ⟨by decide, by decide⟩, rfl, rfl⟩)))
  | sysFF => cases h; exact .inr (.inr (.inr (.inl ⟨.inr ⟨by decide, by decide⟩, rfl, rfl⟩)))
  | sweep =>
    replace h : blockSweep cfg.hasSweep b = .ok (r, c) := h
    unfold blockSweep at h
    split at h
    · cases h; exact .inr (.inr (.inr (.inr (.inr (.inr (.inl ⟨rfl, ‹_›, rfl, rfl⟩))))))
    · cases h
  | poll => cases h; exact .inr (.inr (.inr (.inr (.inr (.inl ⟨rfl, rfl, rfl⟩)))))
  | readActive row p => cases h; exact .inr (.inr (.inr (.inr (.inr (.inr (.inr (.inl ⟨row, p, rfl, rfl, rfl⟩)))))))
  | readAccum row p => cases h; exact .inr (.inr (.inr (.inr (.inr (.inr (.inr (.inr ⟨row, p, rfl, rfl, rfl⟩)))))))

/-- A word the block answers is the word of an admitted row, and the answer is that row's. -/
theorem blockStep_ok {cfg : Config} {w : Word} {b c : Block} {r : Response} (h : blockStep cfg w b = .ok (r, c)) :
    ∃ i, decode b.phase cfg.hasSweep w = .ok i ∧ blockExec cfg i b = .ok (r, c) := by
  unfold blockStep at h
  split at h
  · exact ⟨_, ‹_›, h⟩
  · cases h

/-! ### The system's step -/

/-- An instruction in the system is its row's meaning over the block, with the system's parameters (R46). -/
theorem exec_eq_perform (i : Instr) (s : State) : exec i s = perform (blockExec s.cfg i s.block) s := by
  cases i <;> rfl

/-- A word accepted by the system is the block's step on it (R46, R190). -/
theorem acceptWord_eq_perform (w : Word) (s : State) : acceptWord w s = perform (blockStep s.cfg w s.block) s := by
  unfold acceptWord blockStep
  cases decode s.block.phase s.cfg.hasSweep w with
  | ok i => exact exec_eq_perform i s
  | error r => rfl

/-- An instruction that ends in a next state: the block answered, and only the block and the ports changed. -/
theorem exec_next {i : Instr} {s t : State} (h : exec i s = .next t) :
    ∃ r c, blockExec s.cfg i s.block = .ok (r, c) ∧ t = answered r c s :=
  perform_next (exec_eq_perform i s ▸ h)

/-- Everything one edge can do when it answers a next state (R71, R236, R250). -/
theorem step_cases {s t : State} (h : step s = .next t) :
    (s.stream = [] ∧ t = idle s) ∨
    ∃ p rest, s.stream = p :: rest ∧
      ((p.rst = true ∧ t = hostReset { s with stream := rest }) ∨
       (p.rst = false ∧ p.cmdValid = true ∧ acceptWord p.cmdWord { s with stream := rest } = .next t) ∨
       (p.rst = false ∧ p.cmdValid = false ∧ t = idle { s with stream := rest })) := by
  unfold step takeInput at h
  cases hs : s.stream with
  | nil => rw [hs] at h; cases h; exact .inl ⟨rfl, rfl⟩
  | cons p rest =>
    rw [hs] at h
    refine .inr ⟨p, rest, rfl, ?_⟩
    simp only [clockEdge] at h
    cases hr : p.rst
    · cases hv : p.cmdValid
      · rw [hr, hv] at h; cases h; exact .inr (.inr ⟨rfl, rfl, rfl⟩)
      · rw [hr, hv] at h; exact .inr (.inl ⟨rfl, rfl, h⟩)
    · rw [hr] at h; cases h; exact .inl ⟨rfl, rfl⟩

/-- A word accepted with a next state is the word of an admitted row, and the next state is that row's. -/
theorem acceptWord_next {w : Word} {s t : State} (h : acceptWord w s = .next t) :
    ∃ i, decode s.block.phase s.cfg.hasSweep w = .ok i ∧ exec i s = .next t := by
  unfold acceptWord at h
  split at h
  · exact ⟨_, ‹_›, h⟩
  · cases h

/-- A run is its first command, then the rest. -/
theorem runWords_cons_next {w : Word} {ws : List Word} {s t : State} (h : runWords (w :: ws) s = .next t) :
    ∃ u, acceptWord w s = .next u ∧ runWords ws u = .next t := by
  simp only [runWords] at h
  split at h
  · exact ⟨_, ‹_›, h⟩
  · cases h
  · cases h

theorem runWords_append_next {us ws : List Word} : ∀ {s t : State}, runWords (us ++ ws) s = .next t →
    ∃ m, runWords us s = .next m ∧ runWords ws m = .next t := by
  induction us with
  | nil => intro s t h; exact ⟨s, rfl, h⟩
  | cons w us ih =>
    intro s t h
    obtain ⟨u, hu, h⟩ := runWords_cons_next (ws := us ++ ws) h
    obtain ⟨m, hm, h⟩ := ih h
    exact ⟨m, by simp only [runWords, hu, hm], h⟩

end Sys2Proof.Machine
end

