-- ==== Sys2Proof/Laws/PerInstr.lean ====
section
/-! SUPPORT. RowBits, per instruction: an instruction's word carries the fixed bits of the table row of its mnemonic. -/

namespace Sys2Proof.Laws.RowBits

/-- The table has a row of this instruction's mnemonic, and the instruction's word matches it under its mask (R85). -/
def Statement (i : Instr) : Prop :=
  ∃ r ∈ opcodeTable, r.mnemonic = i.mnemonic ∧ encode i &&& r.mask = r.pattern

/-- A READ word's bits 15..11 are its command code and two zeros. -/
theorem read_bits (cmd : BitVec 3) (row : BitVec 4) (p : BitVec 7) :
    commandWord cmd (readOperand row p) &&& 0xF800#16 = commandWord cmd 0#13 := by
  apply BitVec.eq_of_toNat_eq
  have h := and_highMask_toNat (commandWord cmd (readOperand row p)) 11 (by decide)
  rw [show BitVec.ofNat 16 (2 ^ 16 - 2 ^ 11) = 0xF800#16 from rfl] at h
  have := row.isLt
  have := p.isLt
  rw [h, commandWord_toNat, commandWord_toNat, readOperand_toNat]
  simp only [BitVec.toNat_ofNat]
  omega

theorem nop : Statement (.nop) :=
  ⟨{ mnemonic := "NOP", pattern := 0x0000#16, mask := 0xFFFF#16 },
    by simp [opcodeTable, commandRows, voiceRows, systemRows], rfl, by decide⟩

theorem data1 (d : BitVec 7) : Statement (.data1 d) :=
  ⟨{ mnemonic := "BYTE.DATA1", pattern := 0x2000#16, mask := 0xFF80#16, phase := some .awaitD1 },
    by simp [opcodeTable, commandRows, voiceRows, systemRows], rfl, by revert d; decide⟩

theorem data2 (vel : BitVec 7) : Statement (.data2 vel) :=
  ⟨{ mnemonic := "BYTE.DATA2", pattern := 0x2000#16, mask := 0xFF80#16, phase := some .awaitD2 },
    by simp [opcodeTable, commandRows, voiceRows, systemRows], rfl, by revert vel; decide⟩

theorem noteOff (n : BitVec 4) : Statement (.noteOff n) :=
  ⟨{ mnemonic := "BYTE.NOTE_OFF", pattern := 0x2080#16, mask := 0xFFF0#16 },
    by simp [opcodeTable, commandRows, voiceRows, systemRows], rfl, by revert n; decide⟩

theorem noteOn (n : BitVec 4) : Statement (.noteOn n) :=
  ⟨{ mnemonic := "BYTE.NOTE_ON", pattern := 0x2090#16, mask := 0xFFF0#16 },
    by simp [opcodeTable, commandRows, voiceRows, systemRows], rfl, by revert n; decide⟩

theorem statusA (n : BitVec 4) : Statement (.statusA n) :=
  ⟨{ mnemonic := "BYTE.STATUS_A", pattern := 0x20A0#16, mask := 0xFFF0#16 },
    by simp [opcodeTable, commandRows, voiceRows, systemRows], rfl, by revert n; decide⟩

theorem statusB (n : BitVec 4) : Statement (.statusB n) :=
  ⟨{ mnemonic := "BYTE.STATUS_B", pattern := 0x20B0#16, mask := 0xFFF0#16 },
    by simp [opcodeTable, commandRows, voiceRows, systemRows], rfl, by revert n; decide⟩

theorem statusC (n : BitVec 4) : Statement (.statusC n) :=
  ⟨{ mnemonic := "BYTE.STATUS_C", pattern := 0x20C0#16, mask := 0xFFF0#16 },
    by simp [opcodeTable, commandRows, voiceRows, systemRows], rfl, by revert n; decide⟩

theorem statusD (n : BitVec 4) : Statement (.statusD n) :=
  ⟨{ mnemonic := "BYTE.STATUS_D", pattern := 0x20D0#16, mask := 0xFFF0#16 },
    by simp [opcodeTable, commandRows, voiceRows, systemRows], rfl, by revert n; decide⟩

theorem statusE (n : BitVec 4) : Statement (.statusE n) :=
  ⟨{ mnemonic := "BYTE.STATUS_E", pattern := 0x20E0#16, mask := 0xFFF0#16 },
    by simp [opcodeTable, commandRows, voiceRows, systemRows], rfl, by revert n; decide⟩

theorem sysF0 : Statement (.sysF0) :=
  ⟨{ mnemonic := "BYTE.SYS_F0", pattern := 0x20F0#16, mask := 0xFFFF#16 },
    by simp [opcodeTable, commandRows, voiceRows, systemRows], rfl, by decide⟩

theorem sysF1 : Statement (.sysF1) :=
  ⟨{ mnemonic := "BYTE.SYS_F1", pattern := 0x20F1#16, mask := 0xFFFF#16 },
    by simp [opcodeTable, commandRows, voiceRows, systemRows], rfl, by decide⟩

theorem sysF2 : Statement (.sysF2) :=
  ⟨{ mnemonic := "BYTE.SYS_F2", pattern := 0x20F2#16, mask := 0xFFFF#16 },
    by simp [opcodeTable, commandRows, voiceRows, systemRows], rfl, by decide⟩

theorem sysF3 : Statement (.sysF3) :=
  ⟨{ mnemonic := "BYTE.SYS_F3", pattern := 0x20F3#16, mask := 0xFFFF#16 },
    by simp [opcodeTable, commandRows, voiceRows, systemRows], rfl, by decide⟩

theorem sysF4 : Statement (.sysF4) :=
  ⟨{ mnemonic := "BYTE.SYS_F4", pattern := 0x20F4#16, mask := 0xFFFF#16 },
    by simp [opcodeTable, commandRows, voiceRows, systemRows], rfl, by decide⟩

theorem sysF5 : Statement (.sysF5) :=
  ⟨{ mnemonic := "BYTE.SYS_F5", pattern := 0x20F5#16, mask := 0xFFFF#16 },
    by simp [opcodeTable, commandRows, voiceRows, systemRows], rfl, by decide⟩

theorem sysF6 : Statement (.sysF6) :=
  ⟨{ mnemonic := "BYTE.SYS_F6", pattern := 0x20F6#16, mask := 0xFFFF#16 },
    by simp [opcodeTable, commandRows, voiceRows, systemRows], rfl, by decide⟩

theorem sysF7 : Statement (.sysF7) :=
  ⟨{ mnemonic := "BYTE.SYS_F7", pattern := 0x20F7#16, mask := 0xFFFF#16 },
    by simp [opcodeTable, commandRows, voiceRows, systemRows], rfl, by decide⟩

theorem clock : Statement (.clock) :=
  ⟨{ mnemonic := "BYTE.CLOCK", pattern := 0x20F8#16, mask := 0xFFFF#16 },
    by simp [opcodeTable, commandRows, voiceRows, systemRows], rfl, by decide⟩

theorem sysF9 : Statement (.sysF9) :=
  ⟨{ mnemonic := "BYTE.SYS_F9", pattern := 0x20F9#16, mask := 0xFFFF#16 },
    by simp [opcodeTable, commandRows, voiceRows, systemRows], rfl, by decide⟩

theorem sysFA : Statement (.sysFA) :=
  ⟨{ mnemonic := "BYTE.SYS_FA", pattern := 0x20FA#16, mask := 0xFFFF#16 },
    by simp [opcodeTable, commandRows, voiceRows, systemRows], rfl, by decide⟩

theorem sysFB : Statement (.sysFB) :=
  ⟨{ mnemonic := "BYTE.SYS_FB", pattern := 0x20FB#16, mask := 0xFFFF#16 },
    by simp [opcodeTable, commandRows, voiceRows, systemRows], rfl, by decide⟩

theorem sysFC : Statement (.sysFC) :=
  ⟨{ mnemonic := "BYTE.SYS_FC", pattern := 0x20FC#16, mask := 0xFFFF#16 },
    by simp [opcodeTable, commandRows, voiceRows, systemRows], rfl, by decide⟩

theorem sysFD : Statement (.sysFD) :=
  ⟨{ mnemonic := "BYTE.SYS_FD", pattern := 0x20FD#16, mask := 0xFFFF#16 },
    by simp [opcodeTable, commandRows, voiceRows, systemRows], rfl, by decide⟩

theorem sysFE : Statement (.sysFE) :=
  ⟨{ mnemonic := "BYTE.SYS_FE", pattern := 0x20FE#16, mask := 0xFFFF#16 },
    by simp [opcodeTable, commandRows, voiceRows, systemRows], rfl, by decide⟩

theorem sysFF : Statement (.sysFF) :=
  ⟨{ mnemonic := "BYTE.SYS_FF", pattern := 0x20FF#16, mask := 0xFFFF#16 },
    by simp [opcodeTable, commandRows, voiceRows, systemRows], rfl, by decide⟩

theorem sweep : Statement (.sweep) :=
  ⟨{ mnemonic := "SWEEP", pattern := 0x4000#16, mask := 0xFFFF#16, needsSweep := true },
    by simp [opcodeTable, commandRows, voiceRows, systemRows], rfl, by decide⟩

theorem poll : Statement (.poll) :=
  ⟨{ mnemonic := "POLL", pattern := 0x6000#16, mask := 0xFFFF#16 },
    by simp [opcodeTable, commandRows, voiceRows, systemRows], rfl, by decide⟩

theorem readActive (row : BitVec 4) (p : BitVec 7) : Statement (.readActive row p) :=
  ⟨{ mnemonic := "READ_ACTIVE", pattern := 0x8000#16, mask := 0xF800#16 },
    by simp [opcodeTable, commandRows, voiceRows, systemRows], rfl, read_bits 0b100#3 row p⟩

theorem readAccum (row : BitVec 4) (p : BitVec 7) : Statement (.readAccum row p) :=
  ⟨{ mnemonic := "READ_ACCUM", pattern := 0xA000#16, mask := 0xF800#16 },
    by simp [opcodeTable, commandRows, voiceRows, systemRows], rfl, read_bits 0b101#3 row p⟩

end Sys2Proof.Laws.RowBits
end

