-- ==== Sys2Proof/Tests/Slice0.lean ====
section
/-! SUPPORT. Tests. Expected values are from the spec: its encoding tables (R72, R77, R85, R87) and the vectors of
`95_test_vectors.md`, named in each test. At the end, a witness for the hypotheses of every statement that has some. -/

namespace Sys2Proof.Machine.Tests

/-! ### Helpers -/

/-- The next state of an outcome. -/
def nextOf : Host.Outcome State Fault Refusal → Option State
  | .next s => some s
  | .fault _ => none
  | .refused _ => none

/-- The response of an outcome. -/
def rspOf (o : Host.Outcome State Fault Refusal) : Option Response := (nextOf o).bind State.rsp

/-- The refusal of an outcome. -/
def refusalIn : Host.Outcome State Fault Refusal → Option Refusal
  | .next _ => none
  | .fault _ => none
  | .refused r => some r

/-- (STATUS, CHAN, D1, PHASE), as the vectors write the decoder. -/
def decoderOf (o : Host.Outcome State Fault Refusal) : Option (BitVec 8 × BitVec 5 × BitVec 7 × Phase) :=
  (nextOf o).map (fun s => (s.block.status, s.block.chan, s.block.d1, s.block.phase))

/-- (C1, C2, SYNC_SEEN), as the vectors write the divider. -/
def dividerOf (o : Host.Outcome State Fault Refusal) : Option (BitVec 2 × BitVec 4 × Bool) :=
  (nextOf o).map (fun s => (s.block.c1, s.block.c2, s.block.syncSeen))

/-- Both grids, as listed cells. -/
def gridsOf (o : Host.Outcome State Fault Refusal) : Option (Memory × Memory) :=
  (nextOf o).map (fun s => (s.block.active, s.block.accum))

/-- The reset state with the decoder at (STATUS, CHAN, D1, PHASE). -/
def at' (status : BitVec 8) (chan : BitVec 5) (d1 : BitVec 7) (phase : Phase) : State :=
  { State.reset with block.status := status, block.chan := chan, block.d1 := d1, block.phase := phase }

/-- The reset state on a build with SUBDIV = `d`, with the divider at (C1, C2). -/
def dividerAt (d : Subdiv) (c1 : BitVec 2) (c2 : BitVec 4) : State :=
  { State.resetWith { subdiv := d, hasSweep := true } with block.c1 := c1, block.c2 := c2 }

/-- The reset state with these cells listed. -/
def gridsAt (active accum : Memory) : State := { State.reset with block.active := active, block.accum := accum }

/-- Reset with HAS_SWEEP = false. -/
def sweepless : State := State.resetWith { subdiv := .sixteenth, hasSweep := false }

/-! ### WellFormed: each check refuses an ill-formed term -/

theorem test_wellFormed_refuses_data1_awaiting_second : (Instr.data1 60#7).wellFormed .awaitD2 true = false := by decide
theorem test_wellFormed_refuses_data2_awaiting_first : (Instr.data2 60#7).wellFormed .awaitD1 true = false := by decide
theorem test_wellFormed_refuses_sweep_without_it : Instr.sweep.wellFormed .awaitD1 false = false := by decide
theorem test_wellFormed_admits : (Instr.data1 60#7).wellFormed .awaitD1 false = true ∧
    (Instr.data2 60#7).wellFormed .awaitD2 false = true ∧ Instr.sweep.wellFormed .awaitD2 true = true := by decide
theorem test_assemble_refuses_channel_0 : assemble (.readActive 0 60) = none := by decide
theorem test_assemble_refuses_channel_17 : assemble (.noteOn 17 60 1) = none := by decide
theorem test_assemble_refuses_data_128 : assemble (.runningStatus 60 128) = none := by decide
theorem test_assemble_refuses_byte_256 : assemble (.feed [0x90, 256]) = none := by decide

/-! ### Decode: every constructor, by a word written out bit by bit (R72, R77, R85) -/

theorem test_decode_commands :
    decode .awaitD1 true 0b0000000000000000#16 = .ok .nop ∧
    decode .awaitD2 true 0b0100000000000000#16 = .ok .sweep ∧
    decode .awaitD1 true 0b0110000000000000#16 = .ok .poll ∧
    decode .awaitD1 true 0b1000000000111100#16 = .ok (.readActive 0#4 60#7) ∧   -- V12
    decode .awaitD1 true 0b1010000010110000#16 = .ok (.readAccum 1#4 48#7) := by decide   -- V14

theorem test_decode_data :   -- V2, V3
    decode .awaitD1 true 0b0010000001000101#16 = .ok (.data1 0x45#7) ∧
    decode .awaitD2 true 0b0010000001000101#16 = .ok (.data2 0x45#7) := by decide

theorem test_decode_status :
    decode .awaitD2 true 0b0010000010001111#16 = .ok (.noteOff 15#4) ∧
    decode .awaitD1 true 0b0010000010010000#16 = .ok (.noteOn 0#4) ∧
    decode .awaitD1 true 0b0010000010100011#16 = .ok (.statusA 3#4) ∧
    decode .awaitD1 true 0b0010000010110000#16 = .ok (.statusB 0#4) ∧
    decode .awaitD1 true 0b0010000011001001#16 = .ok (.statusC 9#4) ∧
    decode .awaitD1 true 0b0010000011010101#16 = .ok (.statusD 5#4) ∧
    decode .awaitD1 true 0b0010000011101111#16 = .ok (.statusE 15#4) := by decide

theorem test_decode_system_common :
    decode .awaitD1 true 0b0010000011110000#16 = .ok .sysF0 ∧ decode .awaitD1 true 0b0010000011110001#16 = .ok .sysF1 ∧
    decode .awaitD1 true 0b0010000011110010#16 = .ok .sysF2 ∧ decode .awaitD1 true 0b0010000011110011#16 = .ok .sysF3 ∧
    decode .awaitD1 true 0b0010000011110100#16 = .ok .sysF4 ∧ decode .awaitD1 true 0b0010000011110101#16 = .ok .sysF5 ∧
    decode .awaitD2 true 0b0010000011110110#16 = .ok .sysF6 ∧ decode .awaitD2 true 0b0010000011110111#16 = .ok .sysF7 := by
  decide

theorem test_decode_real_time :
    decode .awaitD2 true 0b0010000011111000#16 = .ok .clock ∧ decode .awaitD1 true 0b0010000011111001#16 = .ok .sysF9 ∧
    decode .awaitD1 true 0b0010000011111010#16 = .ok .sysFA ∧ decode .awaitD1 true 0b0010000011111011#16 = .ok .sysFB ∧
    decode .awaitD1 true 0b0010000011111100#16 = .ok .sysFC ∧ decode .awaitD1 true 0b0010000011111101#16 = .ok .sysFD ∧
    decode .awaitD2 true 0b0010000011111110#16 = .ok .sysFE ∧ decode .awaitD2 true 0b0010000011111111#16 = .ok .sysFF := by
  decide

theorem test_decode_reserved :   -- V15 to V24
    decode .awaitD1 true 0x0001#16 = .error .reservedOperand ∧ decode .awaitD1 true 0x2100#16 = .error .reservedOperand ∧
    decode .awaitD2 true 0x3FFF#16 = .error .reservedOperand ∧ decode .awaitD1 true 0x4001#16 = .error .reservedOperand ∧
    decode .awaitD1 true 0x6001#16 = .error .reservedOperand ∧ decode .awaitD1 true 0x8800#16 = .error .reservedOperand ∧
    decode .awaitD1 true 0xA800#16 = .error .reservedOperand ∧ decode .awaitD1 true 0xC000#16 = .error .reservedCommand ∧
    decode .awaitD1 true 0xE000#16 = .error .reservedCommand ∧ decode .awaitD1 false 0x4000#16 = .error .sweepAbsent := by
  decide

theorem test_decodeTableWord : decodeTableWord 16 0x87FF = some (.readActive 15#4 127#7) ∧   -- V13
    decodeTableWord 16 0xC000 = none ∧ decodeTableWord 24 0 = none := by decide

theorem test_withFetchWord_runs_first :
    rspOf (step (State.reset.withFetchWord 16 0x20F8)) = some Response.zero ∧
    dividerOf (step (State.reset.withFetchWord 16 0x20F8)) = some (1#2, 0#4, false) := by decide

/-! ### Status bytes (V26 to V33) -/

theorem test_noteOff : decoderOf (exec (.noteOff 15#4) State.reset) = some (0x80#8, 16#5, 0#7, .awaitD1) := by decide   -- V26
theorem test_noteOn_abandons_pending :   -- V33
    decoderOf (exec (.noteOn 1#4) (at' 0x90#8 1#5 60#7 .awaitD2)) = some (0x90#8, 2#5, 60#7, .awaitD1) ∧
    rspOf (exec (.noteOn 1#4) (at' 0x90#8 1#5 60#7 .awaitD2)) = some Response.zero := by decide
theorem test_statusA : decoderOf (exec (.statusA 3#4) State.reset) = some (0xA0#8, 4#5, 0#7, .awaitD1) := by decide   -- V28
theorem test_statusB : decoderOf (exec (.statusB 0#4) State.reset) = some (0xB0#8, 1#5, 0#7, .awaitD1) := by decide   -- V29
theorem test_statusC : decoderOf (exec (.statusC 9#4) State.reset) = some (0xC0#8, 10#5, 0#7, .awaitD1) := by decide   -- V30
theorem test_statusD : decoderOf (exec (.statusD 0#4) State.reset) = some (0xD0#8, 1#5, 0#7, .awaitD1) := by decide   -- V31
theorem test_statusE : decoderOf (exec (.statusE 15#4) State.reset) = some (0xE0#8, 16#5, 0#7, .awaitD1) := by decide   -- V32

/-! ### Data bytes (W1, V35 to V49) -/

theorem test_data1 :   -- R109's example
    decoderOf (exec (.data1 60#7) (at' 0x90#8 1#5 0#7 .awaitD1)) = some (0x90#8, 1#5, 60#7, .awaitD2) ∧
    rspOf (exec (.data1 60#7) (at' 0x90#8 1#5 0#7 .awaitD1)) = some Response.zero := by decide
theorem test_data1_outside_its_phase :
    refusalIn (exec (.data1 60#7) (at' 0x90#8 1#5 0#7 .awaitD2)) = some .phaseCondition := by decide
theorem test_data2_noteOn_channel_16 :   -- W3
    rspOf (exec (.data2 127#7) (at' 0x90#8 16#5 127#7 .awaitD2)) =
      some { att := 1#2, kind := 1#2, chan := 16#5, pitch := 127#7, vel := 127#7 } ∧
    gridsOf (exec (.data2 127#7) (at' 0x90#8 16#5 127#7 .awaitD2)) = some ([(2047, 127#8)], [(2047, 127#8)]) := by decide
theorem test_data2_error :   -- V49
    rspOf (exec (.data2 100#7) (at' 0#8 0#5 60#7 .awaitD2)) = some { att := 2#2 } ∧
    decoderOf (exec (.data2 100#7) (at' 0#8 0#5 60#7 .awaitD2)) = some (0#8, 0#5, 60#7, .awaitD1) := by decide

/-! ### Completion, by kind -/

theorem test_velocity_zero_for_every_status :   -- V40: a controller value 0 clears a note
    gridsOf (exec (.data2 0#7) { at' 0xB0#8 1#5 7#7 .awaitD2 with block.active := [(7, 50#8)], block.accum := [(7, 50#8)] }) =
      some ([], [(7, 50#8)]) := by decide
theorem test_other_writes_nothing :   -- V38
    rspOf (exec (.data2 30#7) (at' 0xA0#8 1#5 60#7 .awaitD2)) =
      some { att := 1#2, kind := 2#2, chan := 1#5, pitch := 60#7, vel := 30#7 } ∧
    gridsOf (exec (.data2 30#7) (at' 0xA0#8 1#5 60#7 .awaitD2)) = some ([], []) := by decide
theorem test_noteOff_keeps_its_velocity :   -- V36
    rspOf (exec (.data2 127#7) (at' 0x80#8 1#5 60#7 .awaitD2)) =
      some { att := 1#2, kind := 0#2, chan := 1#5, pitch := 60#7, vel := 127#7 } := by decide
theorem test_lower_velocity_replaces_higher :   -- V62
    gridsOf (exec (.data2 20#7) { at' 0x90#8 1#5 60#7 .awaitD2 with block.active := [(60, 100#8)], block.accum := [(60, 100#8)] }) =
      some ([(60, 20#8)], [(60, 20#8)]) := by decide

/-! ### System bytes (V55, V59) -/

theorem test_system_common_changes_nothing : ∀ i ∈ [Instr.sysF0, .sysF1, .sysF2, .sysF3, .sysF4, .sysF5, .sysF6, .sysF7],
    nextOf (exec i (at' 0x90#8 1#5 60#7 .awaitD2)) =
      some { at' 0x90#8 1#5 60#7 .awaitD2 with rsp := some Response.zero } := by decide
theorem test_real_time_changes_nothing : ∀ i ∈ [Instr.sysF9, .sysFA, .sysFB, .sysFC, .sysFD, .sysFE, .sysFF],
    nextOf (exec i (at' 0x90#8 1#5 60#7 .awaitD2)) =
      some { at' 0x90#8 1#5 60#7 .awaitD2 with rsp := some Response.zero } := by decide

/-! ### The divider, POLL and NOP (V73 to V79) -/

theorem test_thresholds : [Subdiv.whole, .half, .quarter, .eighth, .sixteenth].map thresh =
    [15#4, 7#4, 3#4, 1#4, 0#4] := by decide   -- R11
theorem test_clock_half_pulse :   -- V73: byte 32, from C1 = 3, C2 = 7
    dividerOf (exec .clock (dividerAt .half 3#2 7#4)) = some (0#2, 0#4, true) ∧
    rspOf (exec .clock (dividerAt .half 3#2 7#4)) = some { sync := 1#1 } := by decide
theorem test_clock_eighth_no_pulse :   -- the trace of section 2.7, k = 4
    dividerOf (exec .clock (dividerAt .eighth 3#2 0#4)) = some (0#2, 1#4, false) ∧
    rspOf (exec .clock (dividerAt .eighth 3#2 0#4)) = some Response.zero := by decide
theorem test_poll :   -- V77
    rspOf (exec .poll { State.reset with block.syncSeen := true }) = some { data := 1#8 } ∧
    dividerOf (exec .poll { State.reset with block.syncSeen := true }) = some (0#2, 0#4, false) := by decide
theorem test_nop_keeps_the_latch :   -- V78
    dividerOf (exec .nop { State.reset with block.syncSeen := true }) = some (0#2, 0#4, true) := by decide

/-! ### The note table (V68 to V72) -/

theorem test_sweep :   -- R154's example
    gridsOf (exec .sweep (gridsAt [(64, 90#8)] [(60, 100#8), (64, 90#8)])) =
      some ([(64, 90#8)], [(64, 90#8)]) := by decide
theorem test_sweep_absent : refusalIn (exec .sweep sweepless) = some .sweepAbsent := by decide   -- V24
theorem test_readActive :   -- V71 and P1 line 9
    rspOf (exec (.readActive 0#4 60#7) (gridsAt [(60, 100#8)] [])) = some { data := 100#8 } ∧
    rspOf (exec (.readActive 1#4 60#7) (gridsAt [(60, 100#8)] [])) = some Response.zero := by decide
theorem test_readAccum :   -- P3 line 14: READ_ACCUM 2, 1 is word 0xA081, flat address 129
    rspOf (exec (.readAccum 1#4 1#7) (gridsAt [] [(129, 2#8)])) = some { data := 2#8 } := by decide

/-! ### The block's step, with its parameters and its response (R32, R34, R46) -/

theorem test_blockStep_takes_subdiv :   -- R182: the 4th clock from reset fires where N = 1, not where N = 2
    (blockStep { subdiv := .sixteenth, hasSweep := true } 0x20F8#16 { Block.reset with c1 := 3#2 }).toOption =
      some ({ sync := 1#1 }, { Block.reset with syncSeen := true }) ∧
    (blockStep { subdiv := .eighth, hasSweep := true } 0x20F8#16 { Block.reset with c1 := 3#2 }).toOption =
      some (Response.zero, { Block.reset with c2 := 1#4 }) := by decide
theorem test_blockStep_takes_hasSweep :   -- V24
    (blockStep { subdiv := .sixteenth, hasSweep := false } 0x4000#16 Block.reset).toOption = none ∧
    (blockStep { subdiv := .sixteenth, hasSweep := true } 0x4000#16 Block.reset).toOption = some ({}, Block.reset) := by decide
theorem test_runBlock_responses :   -- W1's first message: each step returns its own response
    (runBlock { subdiv := .whole, hasSweep := true } [0x2090#16, 0x203C#16, 0x2064#16] Block.reset).toOption.map Prod.fst =
      some [{}, {}, { att := 1#2, kind := 1#2, chan := 1#5, pitch := 60#7, vel := 100#7 }] := by decide

/-! ### Memory -/

theorem test_write_zero_removes : memoryWrite [(60, 1#8), (61, 2#8)] 60 0#8 = [(61, 2#8)] := by decide
theorem test_write_keeps_order : memoryWrite [(60, 1#8), (62, 2#8)] 61 3#8 = [(60, 1#8), (61, 3#8), (62, 2#8)] := by decide
theorem test_wf_refuses : Memory.wf [(61, 1#8), (60, 1#8)] = false ∧ Memory.wf [(60, 0#8)] = false ∧
    Memory.wf [(2048, 1#8)] = false := by decide

/-! ### The pins -/

theorem test_reset_edge_beats_command :
    nextOf (step { at' 0x90#8 1#5 60#7 .awaitD2 with stream := [{ rst := true, cmdValid := true, cmdWord := 0x20F8#16 }] }) =
      some State.reset := by decide
theorem test_idle_edge : nextOf (step State.reset) = some State.reset := by decide
theorem test_reserved_refused : refusalIn (step (State.reset.withFetchWord 16 0xC000)) = some .reservedCommand := by decide
theorem test_boot : nextOf (boot 16 true) = some State.reset ∧ refusalIn (boot 3 true) = some .subdivOutsideDomain := by
  decide
theorem test_assemble :   -- R87, R88 and P3 line 13
    assemble (.readAccum 2 48) = some [0xA0B0#16] ∧
    assemble (.noteOn 16 127 127) = some [0x209F#16, 0x207F#16, 0x207F#16] := by
  decide

/-! ### Witnesses: a concrete state and operands for the hypotheses of each statement -/

/-- A sounding note, in the middle of the next message. -/
def sounding : State :=
  { at' 0x90#8 1#5 60#7 .awaitD2 with block.active := [(60, 100#8)], block.accum := [(60, 100#8), (64, 90#8)] }

theorem memRead_sounding_active (a : BitVec 11) : memRead .active a sounding.block = if a.toNat = 60 then 100#8 else 0#8 := rfl

theorem memRead_sounding_accum (a : BitVec 11) :
    memRead .accum a sounding.block = if a.toNat = 60 then 100#8 else if a.toNat = 64 then 90#8 else 0#8 := rfl

theorem sounding_inv : sounding.Inv where
  status_legal := by decide
  chan_le := by decide
  chan_zero_iff := by decide
  c2_le := by decide
  cell_le := by
    intro g a
    cases g
    · rw [memRead_sounding_active]; split <;> decide
    · rw [memRead_sounding_accum]; split
      · decide
      · split <;> decide
  sounding_mirrored := by
    intro a h
    rw [memRead_sounding_active] at h ⊢
    rw [memRead_sounding_accum]
    split at h
    · rename_i ha; simp only [ha, if_true]
    · exact absurd rfl h
  active_wf := by decide
  accum_wf := by decide

theorem witness_DecodeOfEncode : (Instr.data2 127#7).wellFormed .awaitD2 true = true := by decide

theorem witness_EncodeOfDecode : decode .awaitD1 true 0x87FF#16 = .ok (.readActive 15#4 127#7) := by decide

theorem witness_ReservedWords_one_per_case :
    State.stream (driveWord 0xFFFF#16 State.reset) = PortInput.command 0xFFFF#16 :: [] ∧
    refusalIn (step (driveWord 0xFFFF#16 State.reset)) = some .reservedCommand ∧
    refusalIn (step (driveWord 0x2100#16 State.reset)) = some .reservedOperand ∧
    refusalIn (step (driveWord 0x8800#16 State.reset)) = some .reservedOperand ∧
    refusalIn (step (driveWord 0x1FFF#16 State.reset)) = some .reservedOperand ∧
    refusalIn (step (driveWord 0x4000#16 sweepless)) = some .sweepAbsent ∧
    refusalIn (step (driveWord 0x87FF#16 State.reset)) = none := by decide

theorem witness_StepRunsTheDecodedInstruction :
    State.stream (driveWord 0x4000#16 State.reset) = PortInput.command 0x4000#16 :: [] ∧
    decode (driveWord 0x4000#16 State.reset).block.phase (driveWord 0x4000#16 State.reset).cfg.hasSweep 0x4000#16 = .ok .sweep := by
  decide

/-- Both clauses of the block-step statement: an answer and a refusal. -/
theorem witness_StepIsTheBlockStep :
    State.stream (driveWord 0x6000#16 sounding) = PortInput.command 0x6000#16 :: [] ∧
    (blockStep sounding.cfg 0x6000#16 sounding.block).toOption = some (Response.zero, sounding.block) ∧
    (blockStep sounding.cfg 0xC000#16 sounding.block).toOption = none := by decide

theorem witness_edges : ∃ s p q, s = { sounding with stream := [p, q] } ∧ s.stream = p :: [q] ∧ p.rst = true ∧
    q.rst = false ∧ q.cmdValid = false ∧ sounding.stream = [] :=
  ⟨_, { rst := true, cmdValid := false, cmdWord := 0#16 }, { rst := false, cmdValid := false, cmdWord := 0#16 },
    rfl, rfl, rfl, rfl, rfl, rfl⟩

theorem witness_MachineIsTheSpecStep : sounding.block.accum.wf = true := by decide

theorem witness_FirstDataByte : (at' 0x00#8 0#5 0#7 .awaitD1).block.phase = .awaitD1 := rfl

/-- Both clauses of the completion statements, at the ends of the channel range. -/
theorem witness_completion :
    (at' 0x90#8 1#5 127#7 .awaitD2).block.phase = .awaitD2 ∧
    (1 ≤ (at' 0x90#8 1#5 127#7 .awaitD2).block.chan.toNat ∧ (at' 0x90#8 1#5 127#7 .awaitD2).block.chan.toNat ≤ 16) ∧
    (1 ≤ (at' 0x80#8 16#5 0#7 .awaitD2).block.chan.toNat ∧ (at' 0x80#8 16#5 0#7 .awaitD2).block.chan.toNat ≤ 16) ∧
    ¬ (1 ≤ (at' 0x00#8 0#5 60#7 .awaitD2).block.chan.toNat ∧ (at' 0x00#8 0#5 60#7 .awaitD2).block.chan.toNat ≤ 16) ∧
    ¬ (1 ≤ (at' 0x00#8 17#5 60#7 .awaitD2).block.chan.toNat ∧
    (at' 0x00#8 17#5 60#7 .awaitD2).block.chan.toNat ≤ 16) := by decide

/-- Each kind of R150 to R153 is the kind of some completion. -/
theorem witness_kinds : resolve 0x90#8 1#7 = .noteOn ∧ resolve 0x90#8 0#7 = .noteOff ∧ resolve 0x80#8 127#7 = .noteOff ∧
    resolve 0xE0#8 1#7 = .other ∧ resolve 0x00#8 1#7 = .other ∧ resolve 0xB0#8 0#7 = .noteOff := by decide

theorem witness_error_repeats : (at' 0x00#8 0#5 0#7 .awaitD1).block.phase = .awaitD1 ∧
    (at' 0x00#8 0#5 0#7 .awaitD1).block.chan = 0#5 := by
  decide

theorem witness_OnlySecondDataByteRaisesDecodeError : ∃ t, exec (.data2 1#7) (at' 0#8 0#5 60#7 .awaitD2) = .next t ∧
    t.rsp = some { att := 0b10#2 } := ⟨_, rfl, rfl⟩

theorem witness_ErrorExactlyWhileChannelIsZero :
    (State.reset.Inv → ({ State.reset with block.phase := .awaitD2 } : State).Inv) ∧ sounding.Inv ∧
    sounding.block.phase = .awaitD2 :=
  ⟨fun h => ⟨h.status_legal, h.chan_le, h.chan_zero_iff, h.c2_le, h.cell_le, h.sounding_mirrored, h.active_wf, h.accum_wf⟩,
    sounding_inv, rfl⟩

/-- A run from reset with a status byte in it, that leaves a non-zero ACCUM cell (W1's first message). -/
theorem witness_runs_from_reset : ∃ s,
    runWords [0x2090#16, 0x203C#16, 0x2064#16] (State.resetWith State.reset.cfg) = .next s ∧
    memRead .accum 60#11 s.block ≠ 0#8 ∧ isStatusWord 0x2090#16 = true := ⟨_, rfl, by decide, by decide⟩

theorem witness_running_status : (at' 0x90#8 16#5 0#7 .awaitD1).block.phase = .awaitD1 ∧
    1 ≤ (at' 0x90#8 16#5 0#7 .awaitD1).block.chan.toNat ∧ (at' 0x90#8 16#5 0#7 .awaitD1).block.chan.toNat ≤ 16 := by decide

theorem witness_status_bytes : 0x80 ≤ (0x80#8 : Byte).toNat ∧ (0x80#8 : Byte).toNat ≤ 0xEF ∧
    0x80 ≤ (0xEF#8 : Byte).toNat ∧ (0xEF#8 : Byte).toNat ≤ 0xEF := by decide

theorem witness_SystemBytesDoNotDisturbMessages : ∃ t,
    runWords [0x2090#16, 0x203C#16, 0x20F8#16, 0x2064#16] State.reset = .next t ∧ isSystemWord 0x20F8#16 = true :=
  ⟨_, rfl, by decide⟩

/-- The three cases of ClockStep, and its premise at the top of C2's range. -/
theorem witness_clock_cases :
    (dividerAt .whole 2#2 15#4).block.c1 ≠ 3#2 ∧
    ((dividerAt .whole 3#2 14#4).block.c1 = 3#2 ∧
    (dividerAt .whole 3#2 14#4).block.c2.toNat ≠ 16 / subdivision .whole - 1) ∧
    ((dividerAt .whole 3#2 15#4).block.c1 = 3#2 ∧
    (dividerAt .whole 3#2 15#4).block.c2.toNat = 16 / subdivision .whole - 1) ∧
    (dividerAt .whole 3#2 15#4).block.c2.toNat ≤ 16 / subdivision (dividerAt .whole 3#2 15#4).cfg.subdiv - 1 := by decide

theorem witness_OnlyAPulseSetsTheLatch : ∃ t, exec .clock (dividerAt .sixteenth 3#2 0#4) = .next t ∧ syncFired t ∧
    (dividerAt .sixteenth 3#2 0#4).block.syncSeen = false ∧ t.block.syncSeen = true :=
  ⟨_, rfl, ⟨_, rfl, by decide⟩, rfl, by decide⟩

theorem witness_PollCoalescesPulses : ∃ s₀ s u, acceptWord pollWord u = .next s₀ ∧ pollWord ∉ [clockWord] ∧
    runWords [clockWord] s₀ = .next s ∧ syncFired s :=
  ⟨_, _, dividerAt .sixteenth 3#2 0#4, rfl, by decide, rfl, ⟨_, rfl, by decide⟩⟩

theorem witness_FlatAddress : 1 ≤ (16#5 : BitVec 5).toNat ∧ (16#5 : BitVec 5).toNat ≤ 16 ∧ 1 ≤ (1#5 : BitVec 5).toNat ∧
    cellAddr 15#4 127#7 = cellAddr 15#4 127#7 := by decide

theorem witness_GridWrite_other_grid : Grid.accum ≠ Grid.active := by decide

theorem witness_sweep_cases : sounding.cfg.hasSweep = true ∧ sweepless.cfg.hasSweep = false ∧
    memRead .active 64#11 sounding.block = 0#8 ∧ memRead .active 60#11 sounding.block ≠ 0#8 := by decide

theorem witness_SweepIsTheLoop : Memory.wf [(60, 100#8), (64, 90#8)] = true := by decide

theorem witness_SweepIsIdempotent : ∃ t, exec .sweep sounding = .next t := ⟨_, rfl⟩

theorem witness_OnlySweepClearsAccum : ∃ t, exec .sweep sounding = .next t ∧ memRead .accum 64#11 sounding.block ≠ 0#8 ∧
    memRead .accum 64#11 t.block = 0#8 := ⟨_, rfl, by decide, by decide⟩

theorem witness_NoteOnMessage : assemble (.noteOn 16 127 127) = some [0x209F#16, 0x207F#16, 0x207F#16] := by decide

/-- The word a SWEEP is in R45's statement, and a run with one that a sounding note survives. -/
theorem witness_AccumRemembers : ∃ s,
    runWords [0x2090#16, 0x203C#16, 0x2064#16, sweepWord] (State.resetWith State.reset.cfg) = .next s ∧
    memRead .accum 60#11 s.block ≠ 0#8 := ⟨_, rfl, by decide⟩

theorem witness_EveryStepKeepsTheInvariant : ∃ t, sounding.Inv ∧ step sounding = .next t := ⟨_, sounding_inv, rfl⟩

/-- A row for each clause of the "written by" statement: each does change its state somewhere. -/
theorem witness_rows_write_decoder :
    decoderOf (exec (.noteOn 1#4) State.reset) = some (0x90#8, 2#5, 0#7, .awaitD1) ∧
    decoderOf (exec (.data1 1#7) State.reset) = some (0#8, 0#5, 1#7, .awaitD2) ∧
    decoderOf (.next State.reset) = some (0#8, 0#5, 0#7, .awaitD1) := by decide

theorem witness_rows_write_divider_and_grids :
    dividerOf (exec .clock State.reset) = some (1#2, 0#4, false) ∧
    gridsOf (exec (.data2 1#7) sounding) = some ([(60, 1#8)], [(60, 1#8), (64, 90#8)]) ∧
    gridsOf (exec .sweep sounding) = some ([(60, 100#8)], [(60, 100#8)]) := by decide

/-- An outcome that is a next state. -/
theorem exists_next {o : Host.Outcome State Fault Refusal} (h : (nextOf o).isSome = true) : ∃ t, o = .next t := by
  cases o with
  | next t => exact ⟨t, rfl⟩
  | fault f => cases h
  | refused r => cases h

theorem witness_ParametersNeverChange : ∃ t, step (driveWord 0x20FF#16 sounding) = .next t := exists_next (by decide)

theorem witness_OtherCommandsDoNotSeeTheDecoder : (∃ s', runWords [0x803C#16, pollWord] sounding = .next s') ∧
    (∀ w ∈ [0x803C#16, pollWord], cmdOf w ≠ 0b001#3) ∧
    sounding.block.active = { sounding with block.phase := .awaitD1 }.block.active :=
  ⟨exists_next (by decide), by simp only [List.forall_mem_cons]; exact ⟨by decide, by decide, by simp⟩, rfl⟩

theorem witness_AdmittedInstructions :
    (Instr.data2 1#7).wellFormed sounding.block.phase sounding.cfg.hasSweep = true ∧
    (Instr.data1 1#7).wellFormed sounding.block.phase sounding.cfg.hasSweep = false := by decide

theorem witness_UnreservedStreams : ∀ w ∈ [0x4000#16, 0x20FF#16, 0xA7FF#16], reservedWord sounding.cfg.hasSweep w = false := by
  simp only [List.forall_mem_cons]
  exact ⟨by decide, by decide, by decide, by simp⟩

/-- Each clause of the response statement has a row. -/
theorem witness_ResponseFieldsByCommand : ∃ t r, exec .sysF0 sounding = .next t ∧ t.rsp = some r ∧
    isSystemWord (encode .sysF0) = true ∧ cmdOf (encode (.data2 1#7)) = 0b001#3 ∧
    (byteOf (encode (.data2 1#7))).toNat < 0xF0 := ⟨_, _, rfl, rfl, by decide, by decide, by decide⟩

theorem witness_EventErrorAndSyncExclude : ∃ t r, exec (.data2 1#7) sounding = .next t ∧ t.rsp = some r ∧ r.att ≠ 0b00#2 :=
  ⟨_, _, rfl, rfl, by decide⟩

theorem witness_boot_domain : 1 ∈ [1, 2, 4, 8, 16] ∧ 16 ∈ [1, 2, 4, 8, 16] ∧ 0 ∉ [1, 2, 4, 8, 16] ∧
    3 ∉ [1, 2, 4, 8, 16] := by
  decide

theorem witness_assembler_ranges : (assemble (.readActive 16 127)).isSome = true ∧ (assemble (.byte 0xFF)).isSome = true ∧
    (assemble (.noteOff 1 127 127)).isSome = true ∧ assemble (.noteOff 1 127 128) = none ∧
    assemble (.byte 0x100) = none := by
  decide

end Sys2Proof.Machine.Tests
end

