-- ==== Sys2Proof/Proofs/Scope.lean ====
section
/-! PROOFS. SUBDIV's domain is the range of `subdivision`: `subdivOf?` is its inverse there, and `boot` refuses the values
outside it (R11). -/

namespace Sys2Proof.Machine

theorem mem_subdivDomain_iff (n : Nat) : n ∈ [1, 2, 4, 8, 16] ↔ ∃ d, subdivision d = n := by
  constructor
  · intro hn
    simp only [List.mem_cons, List.not_mem_nil, or_false] at hn
    obtain rfl | rfl | rfl | rfl | rfl := hn
    · exact ⟨.whole, rfl⟩
    · exact ⟨.half, rfl⟩
    · exact ⟨.quarter, rfl⟩
    · exact ⟨.eighth, rfl⟩
    · exact ⟨.sixteenth, rfl⟩
  · rintro ⟨d, rfl⟩
    cases d <;> decide

@[simp] theorem subdivOf?_subdivision (d : Subdiv) : subdivOf? (subdivision d) = some d := by
  cases d <;> rfl

/-- Whatever `subdivOf?` finds has the value it was asked for, since `find?` tested it. -/
theorem subdivision_of_subdivOf?_eq_some {n : Nat} {d : Subdiv} (h : subdivOf? n = some d) : subdivision d = n :=
  beq_iff_eq.mp (List.find?_some (p := (subdivision · == n)) h)

@[simp] theorem thresh_toNat (d : Subdiv) : (thresh d).toNat = wrapsPerSync d - 1 := by
  cases d <;> rfl

theorem boot_subdivision (d : Subdiv) (hasSweep : Bool) :
    boot (subdivision d) hasSweep = .next (State.resetWith { subdiv := d, hasSweep := hasSweep }) := by
  simp [boot]

theorem boot_eq_refused {n : Nat} (hn : ∀ d, subdivision d ≠ n) (hasSweep : Bool) :
    boot n hasSweep = .refused .subdivOutsideDomain := by
  have hnone : subdivOf? n = none :=
    Option.eq_none_iff_forall_ne_some.mpr fun d h => hn d (subdivision_of_subdivOf?_eq_some h)
  simp [boot, hnone]

/-- Settles O53: a value in the domain is `subdivision d` for a `d` that `boot` then takes, and a value outside it is none. -/
theorem bootAcceptsExactlyTheFiveSubdivisions : Obligations.BootAcceptsExactlyTheFiveSubdivisions := by
  refine ⟨⟨rfl, rfl, rfl, rfl, rfl⟩, fun n hasSweep hn => ?_, fun n hasSweep hn => ?_⟩
  · obtain ⟨d, rfl⟩ := (mem_subdivDomain_iff n).mp hn
    exact ⟨_, boot_subdivision d hasSweep, rfl, rfl, rfl, thresh_toNat d⟩
  · exact boot_eq_refused (fun d hd => hn ((mem_subdivDomain_iff n).mpr ⟨d, hd⟩)) hasSweep

end Sys2Proof.Machine
end

