-- ==== Sys2Proof/Proofs/State.lean ====
section
/-! PROOFS. The block and the system around it (R32, R34, R46): what reset leaves, the system's step and run as the block's,
and what no step or run reads: an earlier response, and, BYTE apart, the decoder registers (R26). -/

namespace Sys2Proof.Machine

/-! ### Reset -/

/-- Settles O7: the registers are those of `Block.reset`, and no cell is listed there. -/
theorem resetValues : Obligations.ResetValues :=
  ⟨fun _ => ⟨rfl, rfl, rfl, rfl, rfl, rfl, rfl, rfl, fun g a => memRead_reset g a⟩, rfl⟩

/-! ### The step and the response ports -/

/-- The edge with a command at the head of the host's inputs accepts it (R71). -/
theorem step_of_stream_command {s : State} {w : Word} {rest : List PortInput}
    (h : s.stream = PortInput.command w :: rest) : step s = acceptWord w { s with stream := rest } := by
  simp [step, takeInput, h, clockEdge, PortInput.command]

/-- Settles O56: the step accepts the word, and accepting it performs the block's answer. -/
theorem stepIsTheBlockStep : Obligations.StepIsTheBlockStep := by
  intro s w rest hs
  rw [step_of_stream_command hs, acceptWord_eq_perform]
  rcases blockStep s.cfg w s.block with e | ⟨r, b⟩
  · rfl
  · rfl

/-- An answer's response takes the place of whatever stood on the ports. -/
theorem perform_with_rsp (a : Answer) (s : State) (r : Option Response) : perform a { s with rsp := r } = perform a s := by
  rcases a with e | ⟨q, b⟩
  · rfl
  · rfl

theorem acceptWord_with_rsp (w : Word) (s : State) (r : Option Response) :
    acceptWord w { s with rsp := r } = acceptWord w s := by
  rw [acceptWord_eq_perform, acceptWord_eq_perform, perform_with_rsp]

theorem clockEdge_with_rsp (p : PortInput) (s : State) (r : Option Response) :
    clockEdge p { s with rsp := r } = clockEdge p s := by
  unfold clockEdge
  rw [acceptWord_with_rsp]
  rfl

/-- Settles O58: past the end of the stream the step is idle, which clears the ports, and an edge does not read them. -/
theorem noStepReadsAnEarlierResponse : Obligations.NoStepReadsAnEarlierResponse := by
  rintro ⟨b, cfg, q, stream⟩ r
  cases stream with
  | nil => rfl
  | cons p rest => exact clockEdge_with_rsp p { block := b, cfg := cfg, rsp := q, stream := rest } r

/-! ### Runs -/

/-- Settles O57, by induction on the words: the first word's answer replaces the block and the ports, and the rest run there. -/
theorem systemRunIsTheBlockRun : Obligations.SystemRunIsTheBlockRun := by
  intro ws
  induction ws with
  | nil => intro s; exact ⟨rfl, rfl⟩
  | cons w ws ih =>
    intro s
    simp only [runBlock, runWords, acceptWord_eq_perform]
    rcases blockStep s.cfg w s.block with e | ⟨r, c⟩
    · rfl
    · have hrest := ih (answered r c s)
      simp only [perform_ok, answered_cfg, answered_block, answered_rsp, answered_stream] at hrest ⊢
      rcases hrun : runBlock s.cfg ws c with e | ⟨rs, d⟩
      · simpa only [hrun] using hrest
      · simp only [hrun] at hrest ⊢
        obtain ⟨hlen, hend⟩ := hrest
        refine ⟨by simp [hlen], ?_⟩
        rw [hend, List.getLast?_cons]
        cases rs.getLast? <;> rfl

/-- The system's run that answers every word is a run of its block: each word has its response, and the last is on the ports. -/
theorem runWords_next {ws : List Word} {s s' : State} (h : runWords ws s = .next s') :
    ∃ rs b, runBlock s.cfg ws s.block = .ok (rs, b) ∧ rs.length = ws.length ∧
      s' = { block := b, cfg := s.cfg, rsp := rs.getLast?.or s.rsp, stream := s.stream } := by
  have hrun := systemRunIsTheBlockRun ws s
  rcases hb : runBlock s.cfg ws s.block with e | ⟨rs, b⟩
  · simp [hb, h] at hrun
  · simp only [hb, h] at hrun
    obtain ⟨hlen, hend⟩ := hrun
    exact ⟨rs, b, rfl, hlen, Host.Outcome.next.inj hend⟩

theorem runWords_of_runBlock {ws : List Word} {s : State} {rs : List Response} {b : Block}
    (h : runBlock s.cfg ws s.block = .ok (rs, b)) :
    runWords ws s = .next { block := b, cfg := s.cfg, rsp := rs.getLast?.or s.rsp, stream := s.stream } := by
  have hrun := systemRunIsTheBlockRun ws s
  simp only [h] at hrun
  exact hrun.2

/-! ### Commands other than BYTE -/

/-- `b` with the decoder registers of `d`: STATUS, CHAN, D1 and PHASE. -/
def withDecoderOf (d b : Block) : Block :=
  { b with status := d.status, chan := d.chan, d1 := d.d1, phase := d.phase }

theorem sameDecoder_withDecoderOf (d b : Block) : sameDecoder d (withDecoderOf d b) := ⟨rfl, rfl, rfl, rfl⟩

theorem withDecoderOf_self (b : Block) : withDecoderOf b b = b := rfl

/-- Two blocks that agree on all but the decoder registers are one block with two decoders. -/
theorem eq_withDecoderOf {b c : Block} (hdiv : sameDivider b c) (hsync : c.syncSeen = b.syncSeen)
    (hact : c.active = b.active) (hacc : c.accum = b.accum) : c = withDecoderOf c b := by
  obtain ⟨hc1, hc2⟩ := hdiv
  simp [withDecoderOf, ← hc1, ← hc2, ← hsync, ← hact, ← hacc]

theorem eq_of_mustBeZero_eq_ok {zeroField : Bool} {i j : Instr} (h : mustBeZero zeroField i = .ok j) : j = i := by
  unfold mustBeZero at h
  split at h
  · exact (Except.ok.inj h).symm
  · cases h

/-- Only a BYTE word's row depends on PHASE (R85). -/
theorem decode_phase_of_cmdOf_ne_byte {hasSweep : Bool} {w : Word} (hw : cmdOf w ≠ 0b001#3) (ph ph' : Phase) :
    decode ph hasSweep w = decode ph' hasSweep w := by
  unfold decode
  split
  case h_2 hcmd => exact absurd (BitVec.eq_of_toNat_eq hcmd) hw
  all_goals rfl

/-- A word with another command code decodes to a row of one of the five other commands (R73). -/
theorem decode_ok_of_cmdOf_ne_byte {ph : Phase} {hasSweep : Bool} {w : Word} {i : Instr} (hw : cmdOf w ≠ 0b001#3)
    (h : decode ph hasSweep w = .ok i) :
    i = .nop ∨ i = .sweep ∨ i = .poll ∨ (∃ row p, i = .readActive row p) ∨ ∃ row p, i = .readAccum row p := by
  unfold decode at h
  split at h
  next => exact .inl (eq_of_mustBeZero_eq_ok h)
  next hcmd => exact absurd (BitVec.eq_of_toNat_eq hcmd) hw
  next =>
    split at h
    · cases h
    · split at h
      · cases h; exact .inr (.inl rfl)
      · cases h
  next => exact .inr (.inr (.inl (eq_of_mustBeZero_eq_ok h)))
  next => exact .inr (.inr (.inr (.inl ⟨_, _, eq_of_mustBeZero_eq_ok h⟩)))
  next => exact .inr (.inr (.inr (.inr ⟨_, _, eq_of_mustBeZero_eq_ok h⟩)))
  next => cases h

/-- R26 for one word: the answer is the same whatever decoder the block has, which is carried to the next block. -/
theorem blockStep_withDecoderOf (cfg : Config) {w : Word} (hw : cmdOf w ≠ 0b001#3) (d b : Block) :
    blockStep cfg w (withDecoderOf d b) = (blockStep cfg w b).map (Prod.map id (withDecoderOf d)) := by
  unfold blockStep
  rw [decode_phase_of_cmdOf_ne_byte hw (withDecoderOf d b).phase b.phase]
  rcases hdec : decode b.phase cfg.hasSweep w with e | i
  · rfl
  · obtain rfl | rfl | rfl | ⟨row, p, rfl⟩ | ⟨row, p, rfl⟩ := decode_ok_of_cmdOf_ne_byte hw hdec
    · rfl
    · simp only [blockExec, blockSweep]
      split
      · rfl
      · rfl
    · rfl
    · rfl
    · rfl

/-- R26 for a run, by induction on the words. -/
theorem runBlock_withDecoderOf (cfg : Config) {ws : List Word} (hws : ∀ w ∈ ws, cmdOf w ≠ 0b001#3) (d b : Block) :
    runBlock cfg ws (withDecoderOf d b) = (runBlock cfg ws b).map (Prod.map id (withDecoderOf d)) := by
  induction ws generalizing b with
  | nil => rfl
  | cons w ws ih =>
    obtain ⟨hw, hws⟩ := List.forall_mem_cons.mp hws
    simp only [runBlock, blockStep_withDecoderOf cfg hw d b]
    rcases blockStep cfg w b with e | ⟨r, c⟩
    · rfl
    · simp only [Except.map, Prod.map, id, ih hws c]
      rcases runBlock cfg ws c with e | ⟨rs, c'⟩
      · rfl
      · rfl

/-- A run without BYTE keeps the decoder: carrying the block's own decoder along gives the same run. -/
theorem sameDecoder_of_runBlock {cfg : Config} {ws : List Word} (hws : ∀ w ∈ ws, cmdOf w ≠ 0b001#3) {b c : Block}
    {rs : List Response} (h : runBlock cfg ws b = .ok (rs, c)) : sameDecoder b c := by
  have hself := runBlock_withDecoderOf cfg hws b b
  rw [withDecoderOf_self, h] at hself
  have hc : c = withDecoderOf b c := (Prod.mk.inj (Except.ok.inj hself)).2
  rw [hc]
  exact sameDecoder_withDecoderOf b c

/-- Settles O48: the blocks differ in their decoders only, so their runs do, and the responses are the same list. -/
theorem otherCommandsDoNotSeeTheDecoder : Obligations.OtherCommandsDoNotSeeTheDecoder := by
  rintro ws s t s' hws hdiv hsync hact hacc ⟨hcfg, -⟩ hrun
  obtain ⟨rs, b, hb, hlen, rfl⟩ := runWords_next hrun
  have ht : runBlock t.cfg ws t.block = .ok (rs, withDecoderOf t.block b) := calc
    _ = runBlock s.cfg ws (withDecoderOf t.block s.block) := by rw [hcfg, ← eq_withDecoderOf hdiv hsync hact hacc]
    _ = .ok (rs, withDecoderOf t.block b) := by rw [runBlock_withDecoderOf s.cfg hws, hb]; rfl
  refine ⟨_, runWords_of_runBlock ht, fun hne => ?_, ⟨rfl, rfl⟩, rfl, rfl, rfl, sameDecoder_of_runBlock hws hb,
    sameDecoder_withDecoderOf t.block b⟩
  have hrs : rs ≠ [] := List.ne_nil_of_length_pos (hlen ▸ List.length_pos_iff.mpr hne)
  simp [List.getLast?_eq_some_getLast hrs]

end Sys2Proof.Machine
end

