-- ==== Sys2Proof/Proofs/Memory.lean ====
section
/-! PROOFS. The note table as memory: a cell's flat address determines its row and pitch (R51), and a grid write replaces
one cell and nothing else (R53). -/

namespace Sys2Proof.Machine

/-! ### Flat addresses -/

/-- Row and pitch are the quotient and the remainder of the address by 128, since a pitch is below 128. -/
theorem cellAddr_inj {row row' : BitVec 4} {p p' : BitVec 7} :
    cellAddr row p = cellAddr row' p' ↔ row = row' ∧ p = p' := by
  constructor
  · intro h
    have haddr : row.toNat * 128 + p.toNat = row'.toNat * 128 + p'.toNat := by
      rw [← cellAddr_toNat, ← cellAddr_toNat, h]
    have hp := p.isLt
    have hp' := p'.isLt
    exact ⟨BitVec.eq_of_toNat_eq (by omega), BitVec.eq_of_toNat_eq (by omega)⟩
  · rintro ⟨rfl, rfl⟩
    rfl

theorem cellAddr_le (row : BitVec 4) (p : BitVec 7) : (cellAddr row p).toNat ≤ 2047 :=
  Nat.le_of_lt_succ (cellAddr row p).isLt

/-- Settles O33: the row of channel c is c − 1, and the address of a row and a pitch determines both. -/
theorem flatAddressOfACell : Obligations.FlatAddressOfACell := by
  refine ⟨fun c p h₁ h₁₆ => ⟨?_, cellAddr_le _ p⟩, fun _ _ _ _ h => cellAddr_inj.mp h⟩
  rw [cellAddr_toNat, rowOf_toNat c h₁ h₁₆]

/-! ### Grid writes -/

theorem sameGridBut_memWrite (g : Grid) (a : BitVec 11) (v : Byte) (b : Block) : sameGridBut g a b (memWrite g a v b) :=
  fun x hx => memRead_memWrite_other g a x hx v b

theorem sameGrid_memWrite {g h : Grid} (hg : h ≠ g) (a : BitVec 11) (v : Byte) (b : Block) :
    sameGrid h b (memWrite g a v b) :=
  fun x => memRead_memWrite_otherGrid g h a x hg v b

theorem sameDecoder_memWrite (g : Grid) (a : BitVec 11) (v : Byte) (b : Block) : sameDecoder b (memWrite g a v b) :=
  ⟨memWrite_status b g a v, memWrite_chan b g a v, memWrite_d1 b g a v, memWrite_phase b g a v⟩

theorem sameDivider_memWrite (g : Grid) (a : BitVec 11) (v : Byte) (b : Block) : sameDivider b (memWrite g a v b) :=
  ⟨memWrite_c1 b g a v, memWrite_c2 b g a v⟩

/-- Settles O34: the cell written reads as the value, and each other part of the block is framed by its own law. -/
theorem gridWriteReplacesOneCell : Obligations.GridWriteReplacesOneCell := fun g a v b =>
  ⟨memRead_memWrite_same g a v b, sameGridBut_memWrite g a v b, fun _ hg => sameGrid_memWrite hg a v b,
    sameDecoder_memWrite g a v b, sameDivider_memWrite g a v b, memWrite_syncSeen b g a v⟩

end Sys2Proof.Machine
end

