-- ==== Sys2Proof/Proofs/Encoding.lean ====
section
/-! PROOFS. The command words: which are reserved and refused (R78), which response fields each command sets (R74 to R76),
and the words the assembler makes (R87, R88). -/

namespace Sys2Proof.Machine

/-! ### Reserved words are refused -/

/-- A stream byte's row meets the table's condition on the phase it was decoded in (R79, R85). -/
theorem wellFormed_decodeByte (ph : Phase) (hasSweep : Bool) (b : Byte) :
    (decodeByte ph b).wellFormed ph hasSweep = true := by
  unfold decodeByte
  split
  · unfold decodeSystem
    split <;> rfl
  · split
    · unfold decodeStatus
      split <;> rfl
    · cases ph <;> rfl

theorem wellFormed_of_decode_eq_ok {ph : Phase} {hasSweep : Bool} {w : Word} {i : Instr}
    (h : decode ph hasSweep w = .ok i) : i.wellFormed ph hasSweep = true := by
  unfold decode at h
  split at h
  next => exact eq_of_mustBeZero_eq_ok h ▸ rfl
  next => exact eq_of_mustBeZero_eq_ok h ▸ wellFormed_decodeByte ph hasSweep (byteOf w)
  next =>
    split at h
    · cases h
    · split at h
      · cases h; assumption
      · cases h
  next => exact eq_of_mustBeZero_eq_ok h ▸ rfl
  next => exact eq_of_mustBeZero_eq_ok h ▸ rfl
  next => exact eq_of_mustBeZero_eq_ok h ▸ rfl
  next => cases h

/-- A row has a meaning exactly where its table condition holds: only the data rows and SWEEP have one (R85). -/
theorem exists_blockExec_eq_ok_iff (cfg : Config) (i : Instr) (b : Block) :
    (∃ a, blockExec cfg i b = .ok a) ↔ i.wellFormed b.phase cfg.hasSweep = true := by
  cases i with
  | data1 d => by_cases hph : b.phase = .awaitD1 <;> simp [blockExec, blockData1, Instr.wellFormed, hph]
  | data2 vel => by_cases hph : b.phase = .awaitD2 <;> simp [blockExec, blockData2, Instr.wellFormed, hph]
  | sweep => by_cases hsw : cfg.hasSweep <;> simp [blockExec, blockSweep, Instr.wellFormed, hsw]
  | _ => exact ⟨fun _ => rfl, fun _ => ⟨_, rfl⟩⟩

theorem exists_mustBeZero_eq_error_iff (zeroField : Bool) (i : Instr) :
    (∃ r, mustBeZero zeroField i = .error r) ↔ zeroField = false := by
  cases zeroField <;> simp [mustBeZero]

/-- The decoder rejects exactly the words that R78 lists, command code by command code. -/
theorem exists_decode_eq_error_iff (ph : Phase) (hasSweep : Bool) (w : Word) :
    (∃ r, decode ph hasSweep w = .error r) ↔ reservedWord hasSweep w = true := by
  unfold decode reservedWord
  split
  next hcmd => simp [exists_mustBeZero_eq_error_iff, hcmd]
  next hcmd => simp [exists_mustBeZero_eq_error_iff, hcmd]
  next hcmd => by_cases hop : operandOf w = 0#13 <;> cases hasSweep <;> simp [hcmd, hop]
  next hcmd => simp [exists_mustBeZero_eq_error_iff, hcmd]
  next hcmd => simp [exists_mustBeZero_eq_error_iff, hcmd]
  next hcmd => simp [exists_mustBeZero_eq_error_iff, hcmd]
  next h0 h1 h2 h3 h4 h5 =>
    simp only [imp_false] at h0 h1 h2 h3 h4 h5
    have hcmd : 6 ≤ (cmdOf w).toNat := by omega
    simp [hcmd]

/-- The step on a word is a refusal exactly when R78 reserves it: a word that decodes gives an admitted row, which answers. -/
theorem exists_blockStep_eq_error_iff (cfg : Config) (w : Word) (b : Block) :
    (∃ e, blockStep cfg w b = .error e) ↔ reservedWord cfg.hasSweep w = true := by
  rw [← exists_decode_eq_error_iff b.phase]
  unfold blockStep
  rcases hdec : decode b.phase cfg.hasSweep w with r | i
  · simp
  · obtain ⟨a, ha⟩ := (exists_blockExec_eq_ok_iff cfg i b).mpr (wellFormed_of_decode_eq_ok hdec)
    simp [ha]

theorem exists_perform_eq_refused_iff (a : Answer) (s : State) :
    (∃ r, perform a s = .refused r) ↔ ∃ e, a = .error e := by
  rcases a with e | ⟨r, b⟩ <;> simp

theorem operandOf_eq_zero_iff (w : Word) : operandOf w = 0#13 ↔ w.toNat % 0x2000 = 0 := by
  rw [← BitVec.toNat_inj, operandOf_toNat]
  rfl

theorem byteZeroField_eq_zero_iff (w : Word) : w.extractLsb' 8 5 = 0#5 ↔ w.toNat / 0x100 % 0x20 = 0 := by
  rw [← BitVec.toNat_inj, byteZeroField_toNat]
  rfl

theorem readZeroField_eq_zero_iff (w : Word) : w.extractLsb' 11 2 = 0#2 ↔ w.toNat / 0x800 % 4 = 0 := by
  rw [← BitVec.toNat_inj, readZeroField_toNat]
  rfl

/-- R78's three cases, with the "must be 0" fields of R77 as numbers. -/
theorem reservedWord_iff (hasSweep : Bool) (w : Word) :
    reservedWord hasSweep w = true ↔
      (cmdOf w = 0b110#3 ∨ cmdOf w = 0b111#3) ∨
      (((cmdOf w = 0b000#3 ∨ cmdOf w = 0b010#3 ∨ cmdOf w = 0b011#3) ∧ w.toNat % 0x2000 ≠ 0) ∨
        (cmdOf w = 0b001#3 ∧ w.toNat / 0x100 % 0x20 ≠ 0) ∨
        ((cmdOf w = 0b100#3 ∨ cmdOf w = 0b101#3) ∧ w.toNat / 0x800 % 4 ≠ 0)) ∨
      (cmdOf w = 0b010#3 ∧ hasSweep = false) := by
  have hlt := (cmdOf w).isLt
  simp only [← BitVec.toNat_inj (x := cmdOf w), BitVec.toNat_ofNat]
  unfold reservedWord
  split
  next hcmd => simp [hcmd, byteZeroField_eq_zero_iff]
  next hcmd => simp [hcmd, readZeroField_eq_zero_iff]
  next hcmd => simp [hcmd, readZeroField_eq_zero_iff]
  next h1 h4 h5 =>
    simp only [imp_false] at h1 h4 h5
    cases hasSweep <;> simp [operandOf_eq_zero_iff, h1, h4, h5] <;> omega

/-- Settles O4: the step is the block's on the word, which errs exactly on R78's words. -/
theorem reservedWordsAreRefused : Obligations.ReservedWordsAreRefused := by
  intro s w rest hs
  rw [step_of_stream_command hs, acceptWord_eq_perform, exists_perform_eq_refused_iff, exists_blockStep_eq_error_iff,
    reservedWord_iff]

/-! ### Response fields -/

/-- `att` and `kind` hold codes of R75 and R76, and `kind` is 0 unless `att` is EVENT. -/
def Response.HasLegalCodes (r : Response) : Prop :=
  r.att ≠ 0b11#2 ∧ r.kind ≠ 0b11#2 ∧ (r.att ≠ 0b01#2 → r.kind = 0b00#2)

theorem kindCode_ne (k : EventKind) : kindCode k ≠ 0b11#2 := by
  cases k <;> decide

theorem hasLegalCodes_attentionResponse (a : Attention) : (attentionResponse a).HasLegalCodes := by
  cases a with
  | none => exact ⟨by decide, by decide, fun _ => rfl⟩
  | event e => exact ⟨by simp [attentionResponse], kindCode_ne e.kind, fun h => absurd rfl h⟩
  | error => exact ⟨by decide, by decide, fun _ => rfl⟩

theorem hasLegalCodes_of_codes_eq_zero {r : Response} (ha : r.att = 0b00#2) (hk : r.kind = 0b00#2) : r.HasLegalCodes :=
  ⟨by simp [ha], by simp [hk], fun _ => hk⟩

/-- The decoder's response sets `att`, and the event's fields only on EVENT (R74). -/
theorem attentionResponse_fields (a : Attention) :
    attentionResponse a =
      { att := (attentionResponse a).att, kind := (attentionResponse a).kind, chan := (attentionResponse a).chan,
        pitch := (attentionResponse a).pitch, vel := (attentionResponse a).vel } ∧
      ((attentionResponse a).att ≠ 0b01#2 → attentionResponse a = { att := (attentionResponse a).att }) := by
  cases a with
  | none => exact ⟨rfl, fun _ => rfl⟩
  | event e => exact ⟨rfl, fun hatt => absurd rfl hatt⟩
  | error => exact ⟨rfl, fun _ => rfl⟩

theorem completeMessage_response (vel : BitVec 7) (b : Block) : ∃ a, (completeMessage vel b).1 = attentionResponse a := by
  obtain ⟨-, h⟩ | ⟨-, h⟩ := completeMessage_cases vel b
  · exact ⟨_, by rw [h]⟩
  · exact ⟨_, by rw [h]⟩

/-- The responses the block can give: a decoder result, which is NONE for all but the second data byte, a clock byte's sync
bit, or the data that a command other than BYTE reads. -/
theorem blockExec_response_cases {cfg : Config} {i : Instr} {b c : Block} {r : Response}
    (h : blockExec cfg i b = .ok (r, c)) :
    r = Response.zero ∨ (∃ vel a, i = .data2 vel ∧ r = attentionResponse a) ∨ (∃ q, i = .clock ∧ r = syncResponse q) ∨
      (cmdOf (encode i) ≠ 0b001#3 ∧ ∃ v, r = dataResponse v) := by
  obtain ⟨-, -, -, -, hr, -⟩ | ⟨-, -, -, hr, -⟩ | ⟨vel, rfl, -, hrc⟩ | ⟨-, hr, -⟩ | ⟨rfl, hr, -⟩ | ⟨rfl, hr, -⟩ |
    ⟨rfl, -, hr, -⟩ | ⟨row, p, rfl, hr, -⟩ | ⟨row, p, rfl, hr, -⟩ := blockExec_cases h
  · exact .inl hr
  · exact .inl hr
  · obtain ⟨a, ha⟩ := completeMessage_response vel b
    exact .inr (.inl ⟨vel, a, rfl, ha ▸ congrArg Prod.fst hrc⟩)
  · exact .inl hr
  · exact .inr (.inr (.inl ⟨_, rfl, hr⟩))
  · exact .inr (.inr (.inr ⟨by decide, _, hr⟩))
  · exact .inl hr
  · exact .inr (.inr (.inr ⟨by simp [encode], _, hr⟩))
  · exact .inr (.inr (.inr ⟨by simp [encode], _, hr⟩))

theorem cmdOf_of_isSystemWord {w : Word} (h : isSystemWord w = true) : cmdOf w = 0b001#3 := by
  simp only [isSystemWord, decide_eq_true_eq] at h
  apply BitVec.eq_of_toNat_eq
  rw [cmdOf_toNat, BitVec.toNat_ofNat]
  omega

theorem not_isSystemWord_data2 (vel : BitVec 7) : isSystemWord (encode (.data2 vel)) = false := by
  have := vel.isLt
  simp only [encode, isSystemWord, dataWord_toNat, decide_eq_false_iff_not]
  omega

theorem blockExec_hasLegalCodes {cfg : Config} {i : Instr} {b c : Block} {r : Response}
    (h : blockExec cfg i b = .ok (r, c)) : r.HasLegalCodes := by
  obtain rfl | ⟨-, a, -, rfl⟩ | ⟨q, -, rfl⟩ | ⟨-, v, rfl⟩ := blockExec_response_cases h
  · exact hasLegalCodes_attentionResponse .none
  · exact hasLegalCodes_attentionResponse a
  · exact hasLegalCodes_of_codes_eq_zero rfl rfl
  · exact hasLegalCodes_of_codes_eq_zero rfl rfl

/-- A system byte other than the clock sets no field (R117). -/
theorem blockExec_response_of_isSystemWord {cfg : Config} {i : Instr} {b c : Block} {r : Response}
    (h : blockExec cfg i b = .ok (r, c)) (hsys : isSystemWord (encode i) = true) (hi : i ≠ .clock) : r = Response.zero := by
  obtain hr | ⟨vel, -, rfl, -⟩ | ⟨-, rfl, -⟩ | ⟨hcmd, -⟩ := blockExec_response_cases h
  · exact hr
  · simp [not_isSystemWord_data2] at hsys
  · exact absurd rfl hi
  · exact absurd (cmdOf_of_isSystemWord hsys) hcmd

/-- A data or status byte answers with a decoder result (R100). -/
theorem blockExec_response_of_voiceByte {cfg : Config} {i : Instr} {b c : Block} {r : Response}
    (h : blockExec cfg i b = .ok (r, c)) (hcmd : cmdOf (encode i) = 0b001#3) (hbyte : (byteOf (encode i)).toNat < 0xF0) :
    ∃ a, r = attentionResponse a := by
  obtain hr | ⟨-, a, -, hr⟩ | ⟨-, rfl, -⟩ | ⟨hne, -⟩ := blockExec_response_cases h
  · exact ⟨.none, hr⟩
  · exact ⟨a, hr⟩
  · exact absurd hbyte (by decide)
  · exact absurd hcmd hne

/-- Settles O51: the one row a clause names is computed, and a clause over many rows is its lemma above. -/
theorem responseFieldsByCommand : Obligations.ResponseFieldsByCommand := by
  refine ⟨⟨rfl, fun _ => rfl, rfl, rfl, rfl, rfl⟩, fun i s t hexec => ?_⟩
  obtain ⟨r, c, h, rfl⟩ := exec_next hexec
  obtain ⟨hatt, hkind, hevent⟩ := blockExec_hasLegalCodes h
  refine ⟨r, rfl, hatt, hkind, hevent, ?_, ?_, ?_, ?_, ?_, blockExec_response_of_isSystemWord h, fun hcmd hbyte => ?_⟩
  · rintro (rfl | rfl)
    · cases h; rfl
    · simp only [blockExec, blockSweep] at h
      split at h
      · cases h; rfl
      · cases h
  · rintro rfl; cases h; rfl
  · rintro row p rfl; cases h; rfl
  · rintro row p rfl; cases h; rfl
  · rintro rfl; cases h; rfl
  · obtain ⟨a, rfl⟩ := blockExec_response_of_voiceByte h hcmd hbyte
    exact attentionResponse_fields a

/-! ### The assembler's words -/

@[simp] theorem wellFormed_byte_iff (b : Nat) : (AsmLine.byte b).wellFormed = true ↔ b ≤ 0xFF := by
  simp [AsmLine.wellFormed, byteInRange]

@[simp] theorem wellFormed_readActive_iff (c p : Nat) :
    (AsmLine.readActive c p).wellFormed = true ↔ 1 ≤ c ∧ c ≤ 16 ∧ p ≤ 127 := by
  simp [AsmLine.wellFormed, channelInRange, dataInRange, and_assoc]

@[simp] theorem wellFormed_readAccum_iff (c p : Nat) :
    (AsmLine.readAccum c p).wellFormed = true ↔ 1 ≤ c ∧ c ≤ 16 ∧ p ≤ 127 :=
  wellFormed_readActive_iff c p

@[simp] theorem wellFormed_noteOn_iff (c p v : Nat) :
    (AsmLine.noteOn c p v).wellFormed = true ↔ 1 ≤ c ∧ c ≤ 16 ∧ p ≤ 127 ∧ v ≤ 127 := by
  simp [AsmLine.wellFormed, channelInRange, dataInRange, and_assoc]

@[simp] theorem wellFormed_noteOff_iff (c p v : Nat) :
    (AsmLine.noteOff c p v).wellFormed = true ↔ 1 ≤ c ∧ c ≤ 16 ∧ p ≤ 127 ∧ v ≤ 127 :=
  wellFormed_noteOn_iff c p v

@[simp] theorem wellFormed_runningStatus_iff (p v : Nat) :
    (AsmLine.runningStatus p v).wellFormed = true ↔ p ≤ 127 ∧ v ≤ 127 := by
  simp [AsmLine.wellFormed, dataInRange]

@[simp] theorem wellFormed_feed_iff (bs : List Nat) : (AsmLine.feed bs).wellFormed = true ↔ ∀ b ∈ bs, b ≤ 0xFF := by
  simp [AsmLine.wellFormed, byteInRange]

theorem assemble_of_wellFormed {l : AsmLine} (h : l.wellFormed = true) : assemble l = some l.words := if_pos h

theorem assemble_of_not_wellFormed {l : AsmLine} (h : ¬ l.wellFormed = true) : assemble l = none := if_neg h

/-- R87's arithmetic for a READ word is the command code before the READ operand of R77. -/
theorem ofNat_read (cmd : BitVec 3) {c p : Nat} (hc : c - 1 < 16) (hp : p < 128) :
    BitVec.ofNat 16 (cmd.toNat <<< 13 ||| ((c - 1) <<< 7) ||| p) =
      commandWord cmd (readOperand (BitVec.ofNat 4 (c - 1)) (BitVec.ofNat 7 p)) := by
  have hcell : (c - 1) <<< 7 + p < 2 ^ 13 := by rw [Nat.shiftLeft_eq]; omega
  apply BitVec.eq_of_toNat_eq
  rw [Nat.or_assoc, ← Nat.shiftLeft_add_eq_or_of_lt (i := 7) hp, ← Nat.shiftLeft_add_eq_or_of_lt hcell,
    commandWord_toNat, readOperand_toNat, BitVec.toNat_ofNat, BitVec.toNat_ofNat, BitVec.toNat_ofNat, Nat.shiftLeft_eq,
    Nat.shiftLeft_eq]
  have := cmd.isLt
  omega

theorem readZeroField_read (cmd : BitVec 3) (row : BitVec 4) (p : BitVec 7) :
    (commandWord cmd (readOperand row p)).extractLsb' 11 2 = 0#2 := by
  rw [readZeroField_eq_zero_iff, commandWord_toNat, readOperand_toNat]
  have := row.isLt
  have := p.isLt
  omega

theorem decode_readActive (ph : Phase) (hasSweep : Bool) (row : BitVec 4) (p : BitVec 7) :
    decode ph hasSweep (commandWord 0b100#3 (readOperand row p)) = .ok (.readActive row p) := by
  simp [decode, mustBeZero, readZeroField_read]

theorem decode_readAccum (ph : Phase) (hasSweep : Bool) (row : BitVec 4) (p : BitVec 7) :
    decode ph hasSweep (commandWord 0b101#3 (readOperand row p)) = .ok (.readAccum row p) := by
  simp [decode, mustBeZero, readZeroField_read]

/-- 0x2000 | b is 0x2000 + b, since a byte's bits are below those of the command code. -/
theorem asmByte_toNat {b : Nat} (hb : b ≤ 0xFF) : (asmByte b).toNat = 0x2000 + b := by
  have hor : 0x2000 ||| b = 0x2000 + b := (Nat.two_pow_add_eq_or_of_lt (i := 13) (by omega) 1).symm
  rw [asmByte, hor, BitVec.toNat_ofNat]
  omega

/-- The word of the status byte with kind `hi` and channel `c`, whose low nibble is c − 1 (R88). -/
theorem asmByte_status_toNat {hi c : Nat} (hhi : hi < 16) (hc : c - 1 < 16) :
    (asmByte (hi <<< 4 ||| (c - 1))).toNat = 0x2000 + hi * 16 + (c - 1) := by
  rw [← Nat.shiftLeft_add_eq_or_of_lt (i := 4) hc, Nat.shiftLeft_eq, asmByte_toNat (by omega)]
  omega

/-- The words of a status byte and its two data bytes (R88). -/
theorem messageWords_toNat {hi c p v : Nat} (hhi : hi < 16) (hc : c - 1 < 16) (hp : p ≤ 0xFF) (hv : v ≤ 0xFF) :
    [asmByte (hi <<< 4 ||| (c - 1)), asmByte p, asmByte v].map BitVec.toNat =
      [0x2000 + hi * 16 + (c - 1), 0x2000 + p, 0x2000 + v] := by
  simp only [List.map_cons, List.map_nil, asmByte_status_toNat hhi hc, asmByte_toNat hp, asmByte_toNat hv]

theorem map_asmByte_toNat {bs : List Nat} (hbs : ∀ b ∈ bs, b ≤ 0xFF) :
    (bs.map asmByte).map BitVec.toNat = bs.map (0x2000 + ·) := by
  rw [List.map_map]
  exact List.map_congr_left fun b hb => asmByte_toNat (hbs b hb)

/-- Settles O54: a READ line's word is its row's encoding, a BYTE line's is 0x2000 + b, and the other three are computed. -/
theorem assemblerWordsAreTheRowsTheyName : Obligations.AssemblerWordsAreTheRowsTheyName := by
  refine ⟨fun ph hasSweep c p h₁ h₁₆ hp => ?_, fun c p hcp => ⟨?_, ?_⟩, fun b => ⟨fun hb => ?_, fun hb => ?_⟩,
    rfl, rfl, rfl⟩
  · have hc : c - 1 < 16 := by omega
    have hp' : p < 128 := by omega
    refine ⟨_, _, assemble_of_wellFormed ((wellFormed_readActive_iff c p).mpr ⟨h₁, h₁₆, hp⟩),
      assemble_of_wellFormed ((wellFormed_readAccum_iff c p).mpr ⟨h₁, h₁₆, hp⟩), ?_, ?_⟩
    · exact ofNat_read 0b100#3 hc hp' ▸ decode_readActive ph hasSweep _ _
    · exact ofNat_read 0b101#3 hc hp' ▸ decode_readAccum ph hasSweep _ _
  · exact assemble_of_not_wellFormed (mt (wellFormed_readActive_iff c p).mp hcp)
  · exact assemble_of_not_wellFormed (mt (wellFormed_readAccum_iff c p).mp hcp)
  · refine ⟨_, assemble_of_wellFormed ((wellFormed_byte_iff b).mpr hb), BitVec.eq_of_toNat_eq ?_, asmByte_toNat hb⟩
    rw [cmdOf_toNat, asmByte_toNat hb, BitVec.toNat_ofNat]
    omega
  · exact assemble_of_not_wellFormed (by simpa using hb)

/-- Settles O55: each pseudo-command's words are the words of its bytes (R88). -/
theorem pseudoCommandsExpandToBytes : Obligations.PseudoCommandsExpandToBytes := by
  refine ⟨fun c p v h₁ h₁₆ hp hv => ?_, fun c p v hcpv => ⟨?_, ?_⟩, fun p v hpv => ?_, fun n => rfl,
    fun bs => ⟨fun hbs => ?_, fun hbs => ?_⟩⟩
  · have hc : c - 1 < 16 := by omega
    have hp' : p ≤ 0xFF := by omega
    have hv' : v ≤ 0xFF := by omega
    exact ⟨_, _, _,
      assemble_of_wellFormed ((wellFormed_noteOn_iff c p v).mpr ⟨h₁, h₁₆, hp, hv⟩),
      messageWords_toNat (hi := 0x9) (by decide) hc hp' hv',
      assemble_of_wellFormed ((wellFormed_noteOff_iff c p v).mpr ⟨h₁, h₁₆, hp, hv⟩),
      messageWords_toNat (hi := 0x8) (by decide) hc hp' hv',
      assemble_of_wellFormed ((wellFormed_runningStatus_iff p v).mpr ⟨hp, hv⟩),
      map_asmByte_toNat (bs := [p, v]) (by simp [hp', hv'])⟩
  · exact assemble_of_not_wellFormed (mt (wellFormed_noteOn_iff c p v).mp hcpv)
  · exact assemble_of_not_wellFormed (mt (wellFormed_noteOff_iff c p v).mp hcpv)
  · exact assemble_of_not_wellFormed (mt (wellFormed_runningStatus_iff p v).mp hpv)
  · exact ⟨_, assemble_of_wellFormed ((wellFormed_feed_iff bs).mpr hbs), map_asmByte_toNat hbs⟩
  · exact assemble_of_not_wellFormed (by simpa using hbs)

end Sys2Proof.Machine
end

