-- ==== Sys2Proof/Proofs/Decoder.lean ====
section
/-! PROOFS. The stream bytes, by class: a status byte is latched (R101 to R108), a data byte is stored or completes the
message (R109 to R114), and a system byte other than the clock is a no-op (R117). -/

namespace Sys2Proof.Machine

/-! ### The rows of the stream bytes -/

/-- A BYTE word's "must be 0" field is 0, so its row is that of the byte it carries. -/
theorem decode_byteWord (ph : Phase) (hasSweep : Bool) (b : Byte) :
    decode ph hasSweep (byteWord b) = .ok (decodeByte ph b) := by
  have hcmd : (cmdOf (byteWord b)).toNat = 1 := by simp [byteWord]
  have hzero : (byteWord b).extractLsb' 8 5 = 0#5 := by
    rw [byteZeroField_eq_zero_iff, byteWord_toNat]
    omega
  simp [decode, hcmd, hzero, mustBeZero]

theorem decodeByte_status (ph : Phase) {hi : BitVec 4} (h₈ : 0x8 ≤ hi.toNat) (h₁₄ : hi.toNat ≤ 0xE) (n : BitVec 4) :
    decodeByte ph (hi ++ n) = decodeStatus (hi.extractLsb' 0 3) n := by
  revert n h₁₄ h₈ hi
  cases ph <;> decide

theorem decodeByte_system (ph : Phase) (n : BitVec 4) : decodeByte ph (0xF#4 ++ n) = decodeSystem n := by
  revert n
  cases ph <;> decide

/-- The block's answer takes the place of the system's block and response. -/
theorem exec_eq_next_of_blockExec {i : Instr} {s : State} {r : Response} {b : Block}
    (h : blockExec s.cfg i s.block = .ok (r, b)) : exec i s = .next (answered r b s) := by
  rw [exec_eq_perform, h, perform_ok]

/-! ### Status bytes -/

/-- R101's word for the status with high nibble `hi` and the channel nibble `n`. -/
theorem or_statusWord (hi n : BitVec 4) :
    0x2000#16 ||| (hi ++ 0#4 : BitVec 8).setWidth 16 ||| n.setWidth 16 = byteWord (hi ++ n) := by
  revert hi n; decide

/-- The seven status rows by their high nibble, 8 to 14: each latches the byte of its word (R101). -/
theorem blockExec_decodeStatus {hi : BitVec 4} (h₈ : 0x8 ≤ hi.toNat) (h₁₄ : hi.toNat ≤ 0xE) (cfg : Config) (n : BitVec 4)
    (b : Block) :
    blockExec cfg (decodeStatus (hi.extractLsb' 0 3) n) b = .ok (Response.zero, latchStatus (statusByte hi n) b) := by
  have hcases : hi = 0x8#4 ∨ hi = 0x9#4 ∨ hi = 0xA#4 ∨ hi = 0xB#4 ∨ hi = 0xC#4 ∨ hi = 0xD#4 ∨ hi = 0xE#4 := by
    revert hi; decide
  obtain rfl | rfl | rfl | rfl | rfl | rfl | rfl := hcases
  all_goals rfl

/-- LatchStatus for the row with high nibble `hi` (R101): the byte splits into STATUS `hi ++ 0` and CHAN n + 1. -/
theorem statusRowLatches_decodeStatus (hi : BitVec 4) (h₈ : 0x8 ≤ hi.toNat) (h₁₄ : hi.toNat ≤ 0xE) :
    statusRowLatches (decodeStatus (hi.extractLsb' 0 3)) (hi ++ 0#4) (intent (hi ++ 0#4)) := by
  intro n s
  have hstatus := statusOf_statusByte hi n
  have hchan : (channelOf (statusByte hi n)).toNat = n.toNat + 1 := by
    rw [channelOf_statusByte, BitVec.toNat_add, BitVec.toNat_setWidth, BitVec.toNat_ofNat]
    omega
  refine ⟨_, ?_, exec_eq_next_of_blockExec (blockExec_decodeStatus h₈ h₁₄ s.cfg n s.block), hstatus, hchan, rfl,
    congrArg intent hstatus, rfl, rfl, ⟨rfl, rfl⟩, rfl, fun g a => memRead_latchStatus s.block g a _, rfl, rfl⟩
  rw [or_statusWord, decode_byteWord, decodeByte_status _ h₈ h₁₄]

/-- Settles O12: the rows of the high nibbles 8 to 14. -/
theorem statusBytesLatchStatusAndChannel : Obligations.StatusBytesLatchStatusAndChannel :=
  ⟨statusRowLatches_decodeStatus 0x8#4 (by decide) (by decide), statusRowLatches_decodeStatus 0x9#4 (by decide) (by decide),
    statusRowLatches_decodeStatus 0xA#4 (by decide) (by decide), statusRowLatches_decodeStatus 0xB#4 (by decide) (by decide),
    statusRowLatches_decodeStatus 0xC#4 (by decide) (by decide), statusRowLatches_decodeStatus 0xD#4 (by decide) (by decide),
    statusRowLatches_decodeStatus 0xE#4 (by decide) (by decide)⟩

/-! ### Data bytes -/

theorem exec_data1 {s : State} (h : s.block.phase = .awaitD1) (d : BitVec 7) :
    exec (.data1 d) s = .next (answered Response.zero (storeFirst d s.block) s) :=
  exec_eq_next_of_blockExec (if_pos h)

theorem exec_data2 {s : State} (h : s.block.phase = .awaitD2) (vel : BitVec 7) :
    exec (.data2 vel) s = .next (answered (completeMessage vel s.block).1 (completeMessage vel s.block).2 s) :=
  exec_eq_next_of_blockExec (if_pos h)

/-- Settles O13: the row is DATA1 by the phase, and all it does is `storeFirst`. -/
theorem firstDataByteIsStored : Obligations.FirstDataByteIsStored := by
  intro d s hph
  refine ⟨_, ?_, exec_data1 hph d, rfl, rfl, rfl, rfl, rfl, ⟨rfl, rfl⟩, rfl, fun g a => memRead_storeFirst s.block g a d,
    rfl, rfl⟩
  rw [or_dataWord, hph, decode_dataWord_first]

/-! ### Completion -/

/-- On both paths a completion returns to AWAIT_D1 and keeps the other registers, the divider and the latch (R114). -/
theorem completeMessage_registers (vel : BitVec 7) (b : Block) :
    (completeMessage vel b).2.phase = .awaitD1 ∧ (completeMessage vel b).2.status = b.status ∧
      (completeMessage vel b).2.chan = b.chan ∧ (completeMessage vel b).2.d1 = b.d1 ∧
      sameDivider b (completeMessage vel b).2 ∧ (completeMessage vel b).2.syncSeen = b.syncSeen := by
  obtain ⟨-, h⟩ | ⟨-, h⟩ := completeMessage_cases vel b
  · simp [h, sameDivider]
  · simp [h, sameDivider]

theorem completeMessage_of_inRange {b : Block} (h : 1 ≤ b.chan.toNat ∧ b.chan.toNat ≤ 16 ∧ b.d1.toNat ≤ 127)
    (vel : BitVec 7) : completeMessage vel b = emitEvent (completedEvent vel b) b :=
  if_pos (decide_eq_true h)

theorem completeMessage_of_not_inRange {b : Block} (h : ¬ (1 ≤ b.chan.toNat ∧ b.chan.toNat ≤ 16 ∧ b.d1.toNat ≤ 127))
    (vel : BitVec 7) : completeMessage vel b = raiseDecodeError b :=
  if_neg fun hok => h (of_decide_eq_true hok)

/-- The kind's code by R111's three rules, in their order. -/
theorem kindCode_resolve (status : BitVec 8) (vel : BitVec 7) :
    kindCode (resolve status vel) = if vel = 0#7 then 0b00#2 else if status = 0x80#8 then 0b00#2
      else if status = 0x90#8 then 0b01#2 else 0b10#2 := by
  by_cases hvel : vel = 0#7
  · simp [resolve, hvel, kindCode]
  · rw [resolve_of_ne_zero status hvel, intent, apply_ite kindCode, apply_ite kindCode, if_neg hvel]
    rfl

/-- Settles O14: the row is DATA2 by the phase, and the range check decides between the event and the error. -/
theorem secondDataByteCompletesTheMessage : Obligations.SecondDataByteCompletesTheMessage := by
  intro vel s hph
  obtain ⟨hphase, hstatus, hchan, hd1, hdiv, hsync⟩ := completeMessage_registers vel s.block
  refine ⟨_, _, ?_, exec_data2 hph vel, hphase, hstatus, hchan, hd1, hdiv, hsync, ⟨rfl, rfl⟩, rfl, fun hin => ?_,
    fun hout => ?_⟩
  · rw [or_dataWord, hph, decode_dataWord_second]
  · rw [completeMessage_of_inRange hin, ← kindCode_resolve]
    rfl
  · rw [completeMessage_of_not_inRange hout]
    rfl

/-! ### System bytes -/

/-- A row that answers NONE and keeps the block changes nothing of the system but the response. -/
theorem rowIsNoOp_of_blockExec {w : Word} {i : Instr} (hdec : ∀ ph hasSweep, decode ph hasSweep w = .ok i)
    (hexec : ∀ cfg b, blockExec cfg i b = .ok (Response.zero, b)) : rowIsNoOp w i := fun s =>
  ⟨_, hdec _ _, exec_eq_next_of_blockExec (hexec s.cfg s.block), ⟨⟨rfl, rfl, rfl, rfl⟩, ⟨rfl, rfl⟩, rfl, fun _ _ => rfl⟩,
    ⟨rfl, rfl⟩, rfl⟩

/-- SysIgnore (R117): of the system bytes only 0xF8, the clock, does anything. -/
theorem blockExec_decodeSystem {n : BitVec 4} (hn : n ≠ 0x8#4) (cfg : Config) (b : Block) :
    blockExec cfg (decodeSystem n) b = .ok (Response.zero, b) := by
  unfold decodeSystem
  split
  case h_9 h₈ => exact absurd (BitVec.eq_of_toNat_eq h₈) hn
  all_goals rfl

theorem rowIsNoOp_system (n : BitVec 4) (hn : n ≠ 0x8#4) : rowIsNoOp (byteWord (0xF#4 ++ n)) (decodeSystem n) :=
  rowIsNoOp_of_blockExec (fun ph hasSweep => by rw [decode_byteWord, decodeByte_system]) (blockExec_decodeSystem hn)

/-- Settles O23: the rows of the low nibbles 0 to 7. -/
theorem systemCommonBytesAreNoOps : Obligations.SystemCommonBytesAreNoOps :=
  ⟨rowIsNoOp_system 0x0#4 (by decide), rowIsNoOp_system 0x1#4 (by decide), rowIsNoOp_system 0x2#4 (by decide),
    rowIsNoOp_system 0x3#4 (by decide), rowIsNoOp_system 0x4#4 (by decide), rowIsNoOp_system 0x5#4 (by decide),
    rowIsNoOp_system 0x6#4 (by decide), rowIsNoOp_system 0x7#4 (by decide)⟩

/-- Settles O24: the rows of the low nibbles 9 to 15. -/
theorem realTimeBytesAreNoOps : Obligations.RealTimeBytesAreNoOps :=
  ⟨rowIsNoOp_system 0x9#4 (by decide), rowIsNoOp_system 0xA#4 (by decide), rowIsNoOp_system 0xB#4 (by decide),
    rowIsNoOp_system 0xC#4 (by decide), rowIsNoOp_system 0xD#4 (by decide), rowIsNoOp_system 0xE#4 (by decide),
    rowIsNoOp_system 0xF#4 (by decide)⟩

end Sys2Proof.Machine
end

