-- ==== Sys2Proof/Proofs/NoteTable.lean ====
section
/-! PROOFS. What reads and writes the note table: an event of each kind (R150 to R153), SWEEP (R154), and the two READ
commands (R155, R156). -/

namespace Sys2Proof.Machine

/-! ### Events -/

/-- A write changes what one cell of one grid reads as (R53). -/
theorem memRead_memWrite (g h : Grid) (a x : BitVec 11) (v : Byte) (b : Block) :
    memRead h x (memWrite g a v b) = if h = g ∧ x = a then v else memRead h x b := by
  by_cases hg : h = g
  · subst hg
    by_cases hx : x = a
    · subst hx
      simp [memRead_memWrite_same]
    · simp [memRead_memWrite_other h a x hx, hx]
  · simp [memRead_memWrite_otherGrid g h a x hg, hg]

/-- A NOTE_ON leaves its velocity at its cell, in both grids alike (R151). -/
theorem memRead_noteTableApply_noteOn {e : VoiceEvent} (he : e.kind = .noteOn) (g : Grid) (x : BitVec 11) (b : Block) :
    memRead g x (noteTableApply e b) =
      if x = cellAddr (rowOf e.chan) e.pitch then e.vel.setWidth 8 else memRead g x b := by
  simp only [noteTableApply, he, memRead_memWrite]
  cases g <;> simp

/-- A NOTE_OFF leaves 0 at its cell, in ACTIVE only (R152). -/
theorem memRead_noteTableApply_noteOff {e : VoiceEvent} (he : e.kind = .noteOff) (g : Grid) (x : BitVec 11) (b : Block) :
    memRead g x (noteTableApply e b) =
      if g = .active ∧ x = cellAddr (rowOf e.chan) e.pitch then 0#8 else memRead g x b := by
  simp only [noteTableApply, he, memRead_memWrite]

/-- An OTHER leaves the note table alone (R153). -/
theorem noteTableApply_other {e : VoiceEvent} (he : e.kind = .other) (b : Block) : noteTableApply e b = b := by
  simp only [noteTableApply, he]

/-- With a channel 1..16 a completion applies its event to the note table: the pitch half of the range check never fails
(R112, R222). -/
theorem completeMessage_block_of_chan {b : Block} (h₁ : 1 ≤ b.chan.toNat) (h₁₆ : b.chan.toNat ≤ 16) (vel : BitVec 7) :
    (completeMessage vel b).2 = noteTableApply (completedEvent vel b) (awaitFirst b) := by
  rw [completeMessage_of_inRange ⟨h₁, h₁₆, Nat.le_of_lt_succ b.d1.isLt⟩]
  rfl

/-- A message that completes as a NOTE_ON leaves its velocity at its cell, in both grids alike (R151). -/
theorem memRead_completeMessage_noteOn {vel : BitVec 7} {b : Block} (h₁ : 1 ≤ b.chan.toNat) (h₁₆ : b.chan.toNat ≤ 16)
    (hkind : resolve b.status vel = .noteOn) (g : Grid) (x : BitVec 11) :
    memRead g x (completeMessage vel b).2 =
      if x = cellAddr (rowOf b.chan) b.d1 then vel.setWidth 8 else memRead g x b := by
  rw [completeMessage_block_of_chan h₁ h₁₆, memRead_noteTableApply_noteOn hkind, memRead_awaitFirst]
  rfl

/-- A message that completes as a NOTE_OFF leaves 0 at its cell, in ACTIVE only (R152). -/
theorem memRead_completeMessage_noteOff {vel : BitVec 7} {b : Block} (h₁ : 1 ≤ b.chan.toNat) (h₁₆ : b.chan.toNat ≤ 16)
    (hkind : resolve b.status vel = .noteOff) (g : Grid) (x : BitVec 11) :
    memRead g x (completeMessage vel b).2 =
      if g = .active ∧ x = cellAddr (rowOf b.chan) b.d1 then 0#8 else memRead g x b := by
  rw [completeMessage_block_of_chan h₁ h₁₆, memRead_noteTableApply_noteOff hkind, memRead_awaitFirst]
  rfl

/-- A message that completes as an OTHER leaves every cell as it was (R153). -/
theorem sameGrids_completeMessage_other {vel : BitVec 7} {b : Block} (h₁ : 1 ≤ b.chan.toNat) (h₁₆ : b.chan.toNat ≤ 16)
    (hkind : resolve b.status vel = .other) : sameGrids b (completeMessage vel b).2 := by
  intro g x
  rw [completeMessage_block_of_chan h₁ h₁₆, noteTableApply_other hkind, memRead_awaitFirst]

/-- A velocity of 0 resolves to NOTE_OFF, so a NOTE_ON's is not 0 (R111, R151). -/
theorem ne_zero_of_resolve_eq_noteOn {status : BitVec 8} {vel : BitVec 7} (h : resolve status vel = .noteOn) :
    vel ≠ 0#7 := by
  rintro rfl
  rw [resolve_zero] at h
  cases h

/-- Settles O15: what each cell reads as after the completion, kind by kind, at the cell and away from it. -/
theorem eventsWriteTheNoteTable : Obligations.EventsWriteTheNoteTable := by
  intro vel s hph h₁ h₁₆
  rw [ofNat_cell s.block.chan s.block.d1 h₁ h₁₆]
  refine ⟨_, exec_data2 hph vel, fun hkind => ?noteOn, fun hkind => ?noteOff,
    sameGrids_completeMessage_other h₁ h₁₆⟩
  case noteOn =>
    have hread := memRead_completeMessage_noteOn h₁ h₁₆ hkind
    have hcell := fun g => (hread g _).trans (if_pos rfl)
    refine ⟨hcell .active, hcell .accum, ?_, fun x hx => (hread _ x).trans (if_neg hx),
      fun x hx => (hread _ x).trans (if_neg hx)⟩
    exact (hcell .active).trans_ne (cell_ne_zero vel (ne_zero_of_resolve_eq_noteOn hkind))
  case noteOff =>
    have hread := memRead_completeMessage_noteOff h₁ h₁₆ hkind
    exact ⟨(hread _ _).trans (if_pos ⟨rfl, rfl⟩), fun x hx => (hread _ x).trans (if_neg fun h => hx h.right),
      fun x => (hread _ x).trans (if_neg (by simp))⟩

/-! ### SWEEP -/

theorem decode_sweepWord_present (ph : Phase) : decode ph true sweepWord = .ok .sweep := rfl

theorem decode_sweepWord_absent (ph : Phase) : decode ph false sweepWord = .error .sweepAbsent := rfl

theorem exec_sweep {s : State} (h : s.cfg.hasSweep = true) :
    exec .sweep s = .next (answered Response.zero (sweepGrids s.block) s) :=
  exec_eq_next_of_blockExec (if_pos h)

theorem exec_sweep_absent {s : State} (h : s.cfg.hasSweep = false) : exec .sweep s = .refused .sweepAbsent := by
  rw [exec_eq_perform, show blockExec s.cfg .sweep s.block = .error .sweepAbsent from if_neg (by simp [h]), perform_error]

/-- Settles O35: SWEEP is `sweepGrids`, which writes ACCUM only; without it the decoder and the row refuse alike (R12). -/
theorem sweepZeroesSilentAccum : Obligations.SweepZeroesSilentAccum := by
  intro s
  refine ⟨fun hsw => ?_, fun hsw => ⟨?_, exec_sweep_absent hsw⟩⟩
  · refine ⟨_, ?_, exec_sweep hsw, fun a => memRead_sweepGrids_accum a s.block,
      fun a => memRead_sweepGrids_active a s.block, ⟨rfl, rfl, rfl, rfl⟩, ⟨rfl, rfl⟩, rfl, ⟨rfl, rfl⟩, rfl⟩
    exact hsw ▸ decode_sweepWord_present s.block.phase
  · exact hsw ▸ decode_sweepWord_absent s.block.phase

/-! ### The READ commands -/

/-- The spec's arithmetic for a READ word is the command code before the READ operand (R77, R85). -/
theorem ofNat_readWord (cmd : BitVec 3) (row : BitVec 4) (p : BitVec 7) :
    BitVec.ofNat 16 (cmd.toNat * 8192 + row.toNat * 128 + p.toNat) = commandWord cmd (readOperand row p) := by
  rw [Nat.add_assoc, ← readOperand_toNat, ← commandWord_toNat, BitVec.ofNat_toNat, BitVec.setWidth_eq]

theorem ofNat_cellAddr (row : BitVec 4) (p : BitVec 7) :
    BitVec.ofNat 11 (row.toNat * 128 + p.toNat) = cellAddr row p := by
  rw [← cellAddr_toNat, BitVec.ofNat_toNat, BitVec.setWidth_eq]

/-- What R155 and R156 say of a READ of grid `g`: the word `base` + row·128 + p is the row's, which answers the cell of `g` at
row·128 + p, at most 127 under the invariant (R43), and changes nothing. -/
def rowReadsCell (g : Grid) (base : Nat) (row : BitVec 4 → BitVec 7 → Instr) : Prop :=
  ∀ (r : BitVec 4) (p : BitVec 7) (s : State), ∃ t,
    decode s.block.phase s.cfg.hasSweep (BitVec.ofNat 16 (base + r.toNat * 128 + p.toNat)) = .ok (row r p) ∧
    exec (row r p) s = .next t ∧ sameBlock s.block t.block ∧ sameHostSide s t ∧
    t.rsp = some { data := memRead g (BitVec.ofNat 11 (r.toNat * 128 + p.toNat)) s.block } ∧
    (s.Inv → (memRead g (BitVec.ofNat 11 (r.toNat * 128 + p.toNat)) s.block).toNat ≤ 127)

theorem sameBlock_refl (b : Block) : sameBlock b b := ⟨⟨rfl, rfl, rfl, rfl⟩, ⟨rfl, rfl⟩, rfl, fun _ _ => rfl⟩

/-- A row that answers its cell and keeps the block is a READ of that grid. -/
theorem rowReadsCell_of_blockExec {g : Grid} {cmd : BitVec 3} {row : BitVec 4 → BitVec 7 → Instr}
    (hdec : ∀ ph hasSweep r p, decode ph hasSweep (commandWord cmd (readOperand r p)) = .ok (row r p))
    (hexec : ∀ cfg r p b, blockExec cfg (row r p) b = .ok (dataResponse (memRead g (cellAddr r p) b), b)) :
    rowReadsCell g (cmd.toNat * 8192) row := by
  intro r p s
  rw [ofNat_readWord, ofNat_cellAddr]
  exact ⟨_, hdec _ _ r p, exec_eq_next_of_blockExec (hexec s.cfg r p s.block), sameBlock_refl s.block, ⟨rfl, rfl⟩, rfl,
    fun hinv => hinv.cell_le g _⟩

/-- Settles O40: READ_ACTIVE is the READ of ACTIVE, with command code 0b100. -/
theorem readActiveAnswersTheCell : Obligations.ReadActiveAnswersTheCell :=
  rowReadsCell_of_blockExec (cmd := 0b100#3) decode_readActive fun _ _ _ _ => rfl

/-- Settles O41: READ_ACCUM is the READ of ACCUM, with command code 0b101. -/
theorem readAccumAnswersTheCell : Obligations.ReadAccumAnswersTheCell :=
  rowReadsCell_of_blockExec (cmd := 0b101#3) decode_readAccum fun _ _ _ _ => rfl

end Sys2Proof.Machine
end

