-- ==== Sys2Proof/Proofs/ClockDispatch.lean ====
section
/-! PROOFS. NOP, POLL and the timing clock (R181 to R189), and the whole dispatch: on every word the machine, which decodes
to a row and runs it, does what R190's Step does by command field and by byte. -/

namespace Sys2Proof.Machine

/-! ### Sweep's loop -/

/-- After `n` rounds of R154's loop a listed cell is gone exactly if its address is below `n` and silent in ACTIVE. By
induction on the rounds: writing 0 removes the entry of the one address. -/
theorem sweepLoop_eq_filter (active : Memory) (n : Nat) (accum : Memory) :
    sweepLoop active n accum = accum.filter (fun c => decide (n ≤ c.1) || memoryRead active c.1 != 0#8) := by
  induction n with
  | zero => simp [sweepLoop]
  | succ n ih =>
    have hle {a : Nat} (ha : a ≠ n) : n + 1 ≤ a ↔ n ≤ a := by omega
    by_cases hn : memoryRead active n = 0#8
    · simp only [sweepLoop, hn, if_true, ih, memoryWrite, List.filter_filter]
      refine List.filter_congr fun c _ => ?_
      by_cases hc : c.1 = n
      · simp [hc, hn]
      · simp [hc, hle hc]
    · simp only [sweepLoop, hn, if_false, ih]
      refine List.filter_congr fun c _ => ?_
      by_cases hc : c.1 = n
      · simp [hc, hn]
      · simp [hle hc]

/-- The loop over the whole grid is the one pass: a canonical list has no address from 2048 on. -/
theorem sweepLoop_gridSize (active : Memory) {accum : Memory} (h : accum.wf = true) :
    sweepLoop active gridSize accum = sweptAccum active accum := by
  rw [sweepLoop_eq_filter]
  refine List.filter_congr fun c hc => ?_
  obtain ⟨-, -, -, hlt⟩ := memoryRead_of_mem_wf accum 0 h c hc
  simp [Nat.not_le.mpr hlt]

/-! ### The byte dispatcher -/

theorem decoderFeed_of_system {x : Byte} (h : 0xF0 ≤ x.toNat) (b : Block) : decoderFeed x b = (.none, b) := if_pos h

theorem decoderFeed_of_status {x : Byte} (h : ¬ 0xF0 ≤ x.toNat) (hmsb : x.msb = true) (b : Block) :
    decoderFeed x b = (.none, latchStatus x b) := by
  rw [decoderFeed, if_neg h, if_pos hmsb]

theorem decoderFeed_of_firstData {x : Byte} (h : ¬ 0xF0 ≤ x.toNat) (hmsb : ¬ x.msb = true) {b : Block}
    (hph : b.phase = .awaitD1) : decoderFeed x b = (.none, storeFirst (dataOf x) b) := by
  rw [decoderFeed, if_neg h, if_neg hmsb, if_pos hph]

/-- The second data byte: DecoderFeed's result and the dispatcher's use of it are the machine's completion (R110, R180). -/
theorem completeMessage_eq_decoderFeed {x : Byte} (h : ¬ 0xF0 ≤ x.toNat) (hmsb : ¬ x.msb = true) {b : Block}
    (hph : b.phase = .awaitD2) :
    completeMessage (dataOf x) b =
      (attentionResponse (decoderFeed x b).1, applyAttention (decoderFeed x b).1 (decoderFeed x b).2) := by
  rw [decoderFeed, if_neg h, if_neg hmsb, if_neg (by simp [hph])]
  obtain ⟨hok, hc⟩ | ⟨hok, hc⟩ := completeMessage_cases (dataOf x) b
  · rw [hc, if_pos hok]; rfl
  · rw [hc, if_neg (by simp [hok])]; rfl

theorem byteDispatch_of_ne_clock {x : Byte} (h : x ≠ 0xF8#8) (d : Subdiv) (b : Block) :
    byteDispatch d x b =
      (attentionResponse (decoderFeed x b).1, applyAttention (decoderFeed x b).1 (decoderFeed x b).2) :=
  if_neg h

/-- The status row of a byte latches that byte (R101). -/
theorem blockExec_decodeStatus_byte {x : Byte} (h : ¬ 0xF0 ≤ x.toNat) (hmsb : x.msb = true) (cfg : Config) (b : Block) :
    blockExec cfg (decodeStatus (x.extractLsb' 4 3) (x.extractLsb' 0 4)) b = .ok (Response.zero, latchStatus x b) := by
  have hnibbles : 0x8 ≤ (x.extractLsb' 4 4).toNat ∧ (x.extractLsb' 4 4).toNat ≤ 0xE ∧
      (x.extractLsb' 4 4).extractLsb' 0 3 = x.extractLsb' 4 3 ∧ statusByte (x.extractLsb' 4 4) (x.extractLsb' 0 4) = x := by
    revert x; decide
  obtain ⟨h₈, h₁₄, hkind, hbyte⟩ := hnibbles
  rw [← hkind, blockExec_decodeStatus h₈ h₁₄, hbyte]

/-- Byte(x) of R180 is the row of the byte, in the four classes of R79: system, status, first and second data byte. -/
theorem blockExec_decodeByte (cfg : Config) (x : Byte) (b : Block) :
    blockExec cfg (decodeByte b.phase x) b = .ok (byteDispatch cfg.subdiv x b) := by
  unfold decodeByte
  split
  next hsys =>
    by_cases hx : x = 0xF8#8
    · subst hx; rfl
    · have hn : x.extractLsb' 0 4 ≠ 0x8#4 := by revert x; decide
      rw [blockExec_decodeSystem hn, byteDispatch_of_ne_clock hx, decoderFeed_of_system hsys]
      rfl
  next hsys =>
    have hx : x ≠ 0xF8#8 := by rintro rfl; exact hsys (by decide)
    rw [byteDispatch_of_ne_clock hx]
    split
    next hmsb => rw [blockExec_decodeStatus_byte hsys hmsb, decoderFeed_of_status hsys hmsb]; rfl
    next hmsb =>
      split
      next hph => rw [decoderFeed_of_firstData hsys hmsb hph]; exact if_pos hph
      next hph => rw [← completeMessage_eq_decoderFeed hsys hmsb hph]; exact if_pos hph

/-! ### The step of R190 -/

theorem stepWord_of_reserved {cfg : Config} {w : Word} (h : reservedWord cfg.hasSweep w = true) (b : Block) :
    stepWord cfg w b = none := if_pos h

/-- On a word the decoder reads, R190's Step does what the row does, command code by command code. -/
theorem stepWord_of_decode_eq_ok {cfg : Config} {w : Word} {b : Block} {i : Instr} (hwf : b.accum.wf = true)
    (h : decode b.phase cfg.hasSweep w = .ok i) : stepWord cfg w b = (blockExec cfg i b).toOption := by
  have hres : ¬ reservedWord cfg.hasSweep w = true := by
    simp [← exists_decode_eq_error_iff b.phase, h]
  rw [stepWord, if_neg hres]
  unfold decode at h
  split at h
  next hcmd => rw [eq_of_mustBeZero_eq_ok h, hcmd]; rfl
  next hcmd => rw [eq_of_mustBeZero_eq_ok h, hcmd, blockExec_decodeByte]; rfl
  next hcmd =>
    split at h
    · cases h
    · split at h
      next hsw => cases h; simp only [hcmd, blockExec, blockSweep, hsw, sweepLoop_gridSize b.active hwf]; rfl
      next => cases h
  next hcmd => rw [eq_of_mustBeZero_eq_ok h, hcmd]; rfl
  next hcmd => rw [eq_of_mustBeZero_eq_ok h, hcmd]; rfl
  next hcmd => rw [eq_of_mustBeZero_eq_ok h, hcmd]; rfl
  next => cases h

theorem stepWord_eq_toOption_blockStep (cfg : Config) (w : Word) {b : Block} (hwf : b.accum.wf = true) :
    stepWord cfg w b = (blockStep cfg w b).toOption := by
  unfold blockStep
  rcases hdec : decode b.phase cfg.hasSweep w with r | i
  · exact stepWord_of_reserved ((exists_decode_eq_error_iff b.phase cfg.hasSweep w).mp ⟨r, hdec⟩) b
  · exact stepWord_of_decode_eq_ok hwf hdec

/-- Settles O10: R190's Step is the block's, which the system performs, and `boot` takes only the values of `subdivision`. -/
theorem machineIsTheSpecStep : Obligations.MachineIsTheSpecStep := by
  refine ⟨fun w s hwf => ?_, fun n hasSweep hn => ?_⟩
  · rw [stepWord_eq_toOption_blockStep s.cfg w hwf, acceptWord_eq_perform]
    rcases blockStep s.cfg w s.block with e | ⟨r, b⟩
    · exact ⟨e, rfl, rfl⟩
    · exact ⟨rfl, rfl⟩
  · exact ⟨_, boot_eq_refused (fun d hd => hn ((mem_subdivDomain_iff n).mpr ⟨d, hd⟩)) hasSweep⟩

/-! ### The clock divider -/

theorem decode_clockWord (ph : Phase) (hasSweep : Bool) : decode ph hasSweep clockWord = .ok .clock :=
  decode_byteWord ph hasSweep 0xF8#8

theorem exec_clock (s : State) :
    exec .clock s = .next (answered (syncResponse (clockStep s.cfg.subdiv s.block).1)
      (latchSync (clockStep s.cfg.subdiv s.block).1 (clockStep s.cfg.subdiv s.block).2) s) :=
  exec_eq_next_of_blockExec rfl

theorem sameDecoder_clockStep (d : Subdiv) (b : Block) : sameDecoder b (clockStep d b).2 :=
  ⟨clockStep_status b d, clockStep_chan b d, clockStep_d1 b d, clockStep_phase b d⟩

theorem eq_thresh_iff (c : BitVec 4) (d : Subdiv) : c = thresh d ↔ c.toNat = 16 / subdivision d - 1 := by
  rw [← BitVec.toNat_inj, thresh_toNat, wrapsPerSync]

/-- C1 below its last value counts up without wrapping (R181). -/
theorem toNat_add_one_of_ne_three {c : BitVec 2} (h : c ≠ 3#2) : (c + 1#2).toNat = c.toNat + 1 := by
  revert c; decide

/-- Settles O27: the three clauses are the three cases of ClockStep, and in each case the other two do not apply. -/
theorem clockByteStepsTheDivider : Obligations.ClockByteStepsTheDivider := by
  intro s
  refine ⟨_, decode_clockWord _ _, exec_clock s, sameDecoder_clockStep s.cfg.subdiv s.block,
    fun g a => memRead_clockStep s.block g a s.cfg.subdiv, ⟨rfl, rfl⟩, ?_⟩
  simp only [ne_eq, ← eq_thresh_iff]
  obtain ⟨hc1, hc2, h⟩ | ⟨hc1, hc2, h⟩ | ⟨hc1, h⟩ := clockStep_cases s.cfg.subdiv s.block
  · rw [h]
    exact ⟨absurd hc1, fun _ hne => absurd hc2 hne, fun _ _ => ⟨rfl, rfl, rfl, rfl⟩⟩
  · rw [h]
    exact ⟨absurd hc1, fun _ _ => ⟨rfl, rfl, rfl, rfl⟩, fun _ heq => absurd heq hc2⟩
  · rw [h]
    exact ⟨fun _ => ⟨toNat_add_one_of_ne_three hc1, rfl, rfl, rfl⟩, fun heq => absurd heq hc1, fun heq => absurd heq hc1⟩

/-! ### The sync latch -/

theorem syncResponse_sync_eq_one_iff (q : Bool) : (syncResponse q).sync = 1#1 ↔ q = true := by
  cases q <;> decide

theorem attentionResponse_sync (a : Attention) : (attentionResponse a).sync = 0#1 := by
  cases a <;> rfl

theorem syncFired_answered_iff (r : Response) (b : Block) (s : State) : syncFired (answered r b s) ↔ r.sync = 1#1 := by
  simp [syncFired]

/-- Only a clock byte's response has `sync` set (R74). -/
theorem eq_clock_of_sync_eq_one {cfg : Config} {i : Instr} {b c : Block} {r : Response}
    (h : blockExec cfg i b = .ok (r, c)) (hsync : r.sync = 1#1) : i = .clock := by
  obtain rfl | ⟨-, a, -, rfl⟩ | ⟨-, hi, -⟩ | ⟨-, v, rfl⟩ := blockExec_response_cases h
  · exact absurd hsync (by decide)
  · simp [attentionResponse_sync] at hsync
  · exact hi
  · exact absurd hsync (by simp [dataResponse])

/-- POLL clears the latch and every other row but the clock byte keeps it (R186, R187). -/
theorem syncSeen_of_ne_clock {cfg : Config} {i : Instr} {b c : Block} {r : Response}
    (h : blockExec cfg i b = .ok (r, c)) (hi : i ≠ .clock) (hc : c.syncSeen = true) : b.syncSeen = true := by
  obtain ⟨x, -, -, -, -, rfl⟩ | ⟨d, -, -, -, rfl⟩ | ⟨vel, -, -, hrc⟩ | ⟨-, -, rfl⟩ | ⟨rfl, -⟩ | ⟨-, -, rfl⟩ |
    ⟨-, -, -, rfl⟩ | ⟨-, -, -, -, rfl⟩ | ⟨-, -, -, -, rfl⟩ := blockExec_cases h
  · exact hc
  · exact hc
  · obtain ⟨-, -, -, -, -, hsync⟩ := completeMessage_registers vel b
    rw [← hsync, ← hrc]
    exact hc
  · exact hc
  · exact absurd rfl hi
  · cases hc
  · exact hc
  · exact hc
  · exact hc

/-- A clock byte sets `sync` and the latch by the same pulse (R183, R186). -/
theorem syncFired_and_syncSeen_of_clock {s t : State} (h : exec .clock s = .next t) :
    (syncFired t → t.block.syncSeen = true) ∧ (s.block.syncSeen = false → t.block.syncSeen = true → syncFired t) := by
  rw [exec_clock] at h
  cases h
  simp only [syncFired_answered_iff, syncResponse_sync_eq_one_iff, answered_block, latchSync_syncSeen, clockStep_syncSeen]
  exact ⟨fun hq => by rw [hq, Bool.true_or], fun hs ht => by simpa [hs] using ht⟩

/-- Settles O30: a row other than the clock byte neither answers sync = 1 nor sets the latch. -/
theorem onlyAPulseSetsTheLatch : Obligations.OnlyAPulseSetsTheLatch := by
  intro i s t hexec
  by_cases hi : i = .clock
  · subst hi
    obtain ⟨hset, hfired⟩ := syncFired_and_syncSeen_of_clock hexec
    exact ⟨fun h => ⟨rfl, hset h⟩, fun hs ht => ⟨rfl, hfired hs ht⟩⟩
  · obtain ⟨r, c, h, rfl⟩ := exec_next hexec
    refine ⟨fun hsync => absurd ?_ hi, fun hs hc => ?_⟩
    · exact eq_clock_of_sync_eq_one h ((syncFired_answered_iff r c s).mp hsync)
    · exact absurd (syncSeen_of_ne_clock h hi hc) (by simp [hs])

/-! ### NOP and POLL -/

/-- Settles O25: the row answers zero with the block as it was, in every phase and on every build. -/
theorem nopChangesNothing : Obligations.NopChangesNothing :=
  rowIsNoOp_of_blockExec (fun _ _ => rfl) fun _ _ => rfl

theorem decode_pollWord (ph : Phase) (hasSweep : Bool) : decode ph hasSweep pollWord = .ok .poll := rfl

theorem exec_poll (s : State) :
    exec .poll s = .next (answered (dataResponse (latchByte s.block)) (clearSync s.block) s) :=
  exec_eq_next_of_blockExec rfl

/-- The latch as a byte: bit 0, and bits 7 to 1 are 0 (R187). -/
theorem latchByte_eq_ite (b : Block) : latchByte b = if b.syncSeen then 1#8 else 0#8 := by
  unfold latchByte
  cases b.syncSeen <;> rfl

/-- Settles O31: POLL answers the latch's byte, and `clearSync` writes the latch only. -/
theorem pollReturnsAndClearsTheLatch : Obligations.PollReturnsAndClearsTheLatch := by
  intro s
  refine ⟨_, decode_pollWord _ _, exec_poll s, ?_, rfl, ⟨rfl, rfl, rfl, rfl⟩, ⟨rfl, rfl⟩,
    fun g a => memRead_clearSync s.block g a, ⟨rfl, rfl⟩⟩
  rw [← latchByte_eq_ite]
  rfl

end Sys2Proof.Machine
end

