-- ==== Sys2Proof/Proofs/Exceptions.lean ====
section
/-! PROOFS. The one exception (R220 to R225): the second data byte is the only row that can answer ERROR, it does so exactly
when the range check fails, and then the only register written is PHASE. -/

namespace Sys2Proof.Machine

/-! ### Taking the decode error -/

/-- A second data byte whose channel is out of range only returns to AWAIT_D1 (R221). -/
theorem exec_data2_of_chan_not_inRange {s : State} (hph : s.block.phase = .awaitD2)
    (hchan : ¬ (1 ≤ s.block.chan.toNat ∧ s.block.chan.toNat ≤ 16)) (vel : BitVec 7) :
    exec (.data2 vel) s = .next (answered (attentionResponse .error) (awaitFirst s.block) s) := by
  have hout : ¬ (1 ≤ s.block.chan.toNat ∧ s.block.chan.toNat ≤ 16 ∧ s.block.d1.toNat ≤ 127) :=
    fun ⟨h₁, h₁₆, _⟩ => hchan ⟨h₁, h₁₆⟩
  rw [exec_data2 hph, completeMessage_of_not_inRange hout]
  rfl

theorem acceptWord_of_decode_eq_ok {w : Word} {s : State} {i : Instr}
    (h : decode s.block.phase s.cfg.hasSweep w = .ok i) : acceptWord w s = exec i s := by
  rw [acceptWord, h]

theorem acceptWord_data1 {s : State} (hph : s.block.phase = .awaitD1) (d : BitVec 7) :
    acceptWord (0x2000#16 ||| d.setWidth 16) s = exec (.data1 d) s :=
  acceptWord_of_decode_eq_ok (by rw [or_dataWord, hph, decode_dataWord_first])

theorem acceptWord_data2 {s : State} (hph : s.block.phase = .awaitD2) (vel : BitVec 7) :
    acceptWord (0x2000#16 ||| vel.setWidth 16) s = exec (.data2 vel) s :=
  acceptWord_of_decode_eq_ok (by rw [or_dataWord, hph, decode_dataWord_second])

/-- Two data bytes from AWAIT_D1 store the first, then complete the message with the second (R109, R110). -/
theorem runWords_dataPair {s : State} (hph : s.block.phase = .awaitD1) (d vel : BitVec 7) :
    runWords [0x2000#16 ||| d.setWidth 16, 0x2000#16 ||| vel.setWidth 16] s =
      exec (.data2 vel) (answered Response.zero (storeFirst d s.block) s) := by
  simp only [runWords, acceptWord_data1 hph, exec_data1 hph]
  rw [acceptWord_data2 rfl, exec_data2 rfl]

/-- Settles O16: the error writes PHASE alone, so CHAN is still 0 after a pair, and the next pair starts from AWAIT_D1. -/
theorem decodeErrorOnlyReturnsToFirstDataByte : Obligations.DecodeErrorOnlyReturnsToFirstDataByte := by
  refine ⟨fun vel s hph hchan => ?_, fun d vel s hph hzero => ?_⟩
  · exact ⟨_, exec_data2_of_chan_not_inRange hph hchan vel, rfl, rfl, rfl, rfl, ⟨rfl, rfl⟩, rfl,
      fun g a => memRead_awaitFirst s.block g a, ⟨rfl, rfl⟩, rfl⟩
  · have herror := exec_data2_of_chan_not_inRange (s := answered Response.zero (storeFirst d s.block) s) rfl
      (by simp [hzero]) vel
    exact ⟨_, (runWords_dataPair hph d vel).trans herror, rfl, hzero, rfl⟩

/-! ### When ERROR is answered -/

/-- A completion answers ERROR exactly when the range check fails: the event's code is another (R75, R110). -/
theorem completeMessage_att_eq_error_iff (vel : BitVec 7) (b : Block) :
    (completeMessage vel b).1.att = 0b10#2 ↔
      ¬ (1 ≤ b.chan.toNat ∧ b.chan.toNat ≤ 16 ∧ b.d1.toNat ≤ 127) := by
  by_cases hin : 1 ≤ b.chan.toNat ∧ b.chan.toNat ≤ 16 ∧ b.d1.toNat ≤ 127
  · rw [completeMessage_of_inRange hin]
    exact ⟨fun hatt => absurd hatt (by simp [emitEvent, attentionResponse]), absurd hin⟩
  · rw [completeMessage_of_not_inRange hin]
    exact ⟨fun _ => hin, fun _ => rfl⟩

/-- No row but the second data byte's answers ERROR (R220). -/
theorem exists_eq_data2_of_att_eq_error {cfg : Config} {i : Instr} {b c : Block} {r : Response}
    (h : blockExec cfg i b = .ok (r, c)) (hatt : r.att = 0b10#2) : ∃ vel, i = .data2 vel := by
  obtain rfl | ⟨vel, -, hi, -⟩ | ⟨q, -, rfl⟩ | ⟨-, v, rfl⟩ := blockExec_response_cases h
  · exact absurd hatt (by decide)
  · exact ⟨vel, hi⟩
  · exact absurd hatt (by simp [syncResponse])
  · exact absurd hatt (by simp [dataResponse])

/-- Where the second data byte's row answers, it answers with the completion. -/
theorem completeMessage_of_blockExec_data2 {cfg : Config} {vel : BitVec 7} {b : Block} {a : Response × Block}
    (h : blockExec cfg (.data2 vel) b = .ok a) : completeMessage vel b = a := by
  simp only [blockExec, blockData2] at h
  split at h
  · exact Except.ok.inj h
  · cases h

/-- Settles O17: the row is DATA2 if the answer is ERROR, and DATA2 answers ERROR by the range check. -/
theorem onlySecondDataByteRaisesDecodeError : Obligations.OnlySecondDataByteRaisesDecodeError := by
  intro i s t r hexec hrsp
  obtain ⟨r', c, h, rfl⟩ := exec_next hexec
  obtain rfl : r' = r := Option.some.inj hrsp
  have herror (vel : BitVec 7) (hi : i = .data2 vel) : r'.att = 0b10#2 ↔
      ¬ (1 ≤ s.block.chan.toNat ∧ s.block.chan.toNat ≤ 16 ∧ s.block.d1.toNat ≤ 127) := by
    subst hi
    rw [← completeMessage_att_eq_error_iff vel, completeMessage_of_blockExec_data2 h]
  constructor
  · intro hatt
    obtain ⟨vel, hi⟩ := exists_eq_data2_of_att_eq_error h hatt
    exact ⟨vel, hi, (herror vel hi).mp hatt⟩
  · rintro ⟨vel, hi, hout⟩
    exact (herror vel hi).mpr hout

end Sys2Proof.Machine
end

