-- ==== Sys2Proof/Proofs/ResetAndHazards.lean ====
section
/-! PROOFS. The reset edge (R250): from any state, and ahead of any command on the pins, it leaves the reset block. -/

namespace Sys2Proof.Machine

theorem clockEdge_of_rst {p : PortInput} (hrst : p.rst = true) (s : State) : clockEdge p s = .next (hostReset s) :=
  if_pos hrst

/-- A reset edge at the head of the host's inputs: `cmd_valid` and `cmd_word` are not read (R250). -/
theorem step_of_stream_rst {s : State} {p : PortInput} {rest : List PortInput} (hs : s.stream = p :: rest)
    (hrst : p.rst = true) : step s = .next (hostReset { s with stream := rest }) := by
  simp only [step, takeInput, hs, clockEdge_of_rst hrst]

/-- Settles O8: the edge is the host's reset, whose block is `Block.reset`, with R37's registers and no cell listed. -/
theorem resetEdgeLeavesTheResetState : Obligations.ResetEdgeLeavesTheResetState := fun _ _ _ hs hrst =>
  ⟨_, step_of_stream_rst hs hrst, rfl, rfl, rfl, rfl, rfl, rfl, rfl, fun g a => memRead_reset g a⟩

end Sys2Proof.Machine
end

section
/-! PROOFS. Decode and encode are inverse (R72 to R77, R85), and every word has the one row of the opcode table that the decoder
names, or is reserved and has none. -/

namespace Sys2Proof.Machine

/-! ### Decode and encode -/

theorem mustBeZero_eq_ok_iff {zeroField : Bool} {i j : Instr} :
    mustBeZero zeroField i = .ok j ↔ zeroField = true ∧ i = j := by
  cases zeroField <;> simp [mustBeZero]

theorem commandWord_of_operand_eq_zero {w : Word} {cmd : BitVec 3} (hcmd : (cmdOf w).toNat = cmd.toNat)
    (hop : operandOf w = 0#13) : commandWord cmd 0#13 = w := by
  rw [← BitVec.eq_of_toNat_eq hcmd, ← hop, eq_commandWord]

theorem byteWord_byteOf {w : Word} (hcmd : (cmdOf w).toNat = 1) (hzero : w.extractLsb' 8 5 = 0#5) :
    byteWord (byteOf w) = w := by
  rw [cmdOf_toNat] at hcmd
  rw [byteZeroField_eq_zero_iff] at hzero
  apply BitVec.eq_of_toNat_eq
  rw [byteWord_toNat, byteOf_toNat]
  omega

theorem commandWord_readFields {w : Word} {cmd : BitVec 3} (hcmd : (cmdOf w).toNat = cmd.toNat)
    (hzero : w.extractLsb' 11 2 = 0#2) : commandWord cmd (readOperand (rowField w) (pitchField w)) = w := by
  rw [cmdOf_toNat] at hcmd
  rw [readZeroField_eq_zero_iff] at hzero
  apply BitVec.eq_of_toNat_eq
  rw [commandWord_toNat, readOperand_toNat, rowField_toNat, pitchField_toNat, ← hcmd]
  omega

/-- The row of a stream byte keeps every bit of the byte, in either phase (R79). -/
theorem encode_decodeByte (ph : Phase) (b : Byte) : encode (decodeByte ph b) = byteWord b := by
  revert b
  cases ph <;> decide

/-- No bit of a word is ignored: the fields the decoder reads, and those it checks to be 0, are the whole word (R72, R77). -/
theorem encode_of_decode_eq_ok {ph : Phase} {hasSweep : Bool} {w : Word} {i : Instr}
    (h : decode ph hasSweep w = .ok i) : encode i = w := by
  unfold decode at h
  split at h
  next hcmd =>
    obtain ⟨hop, rfl⟩ := mustBeZero_eq_ok_iff.mp h
    exact commandWord_of_operand_eq_zero hcmd (beq_iff_eq.mp hop)
  next hcmd =>
    obtain ⟨hzero, rfl⟩ := mustBeZero_eq_ok_iff.mp h
    rw [encode_decodeByte, byteWord_byteOf hcmd (beq_iff_eq.mp hzero)]
  next hcmd =>
    split at h
    · cases h
    next hop =>
      split at h
      · cases h
        exact commandWord_of_operand_eq_zero hcmd (by simpa using hop)
      · cases h
  next hcmd =>
    obtain ⟨hop, rfl⟩ := mustBeZero_eq_ok_iff.mp h
    exact commandWord_of_operand_eq_zero hcmd (beq_iff_eq.mp hop)
  next hcmd =>
    obtain ⟨hzero, rfl⟩ := mustBeZero_eq_ok_iff.mp h
    exact commandWord_readFields hcmd (beq_iff_eq.mp hzero)
  next hcmd =>
    obtain ⟨hzero, rfl⟩ := mustBeZero_eq_ok_iff.mp h
    exact commandWord_readFields hcmd (beq_iff_eq.mp hzero)
  next => cases h

/-- Settles O2: the encoding gives the fields back, and the decoder reads only rows whose condition holds. -/
theorem encodeOfDecodeIsTheWord : Obligations.EncodeOfDecodeIsTheWord := fun _ _ _ _ h =>
  ⟨encode_of_decode_eq_ok h, wellFormed_of_decode_eq_ok h⟩

theorem decode_statusWord (ph : Phase) (hasSweep : Bool) {hi : BitVec 4} (h₈ : 0x8 ≤ hi.toNat) (h₁₄ : hi.toNat ≤ 0xE)
    (n : BitVec 4) : decode ph hasSweep (byteWord (hi ++ n)) = .ok (decodeStatus (hi.extractLsb' 0 3) n) := by
  rw [decode_byteWord, decodeByte_status ph h₈ h₁₄]

/-- Settles O1: a READ or status row's word gives its fields back, a data byte's row is the one of the phase, and the words
of the other rows are fixed. -/
theorem decodeOfEncodeIsTheInstruction : Obligations.DecodeOfEncodeIsTheInstruction := by
  intro ph hasSweep i hwf
  cases i with
  | nop => rfl
  | data1 d => rw [of_decide_eq_true hwf]; exact decode_dataWord_first hasSweep d
  | data2 vel => rw [of_decide_eq_true hwf]; exact decode_dataWord_second hasSweep vel
  | noteOff n => exact decode_statusWord ph hasSweep (hi := 0x8#4) (by decide) (by decide) n
  | noteOn n => exact decode_statusWord ph hasSweep (hi := 0x9#4) (by decide) (by decide) n
  | statusA n => exact decode_statusWord ph hasSweep (hi := 0xA#4) (by decide) (by decide) n
  | statusB n => exact decode_statusWord ph hasSweep (hi := 0xB#4) (by decide) (by decide) n
  | statusC n => exact decode_statusWord ph hasSweep (hi := 0xC#4) (by decide) (by decide) n
  | statusD n => exact decode_statusWord ph hasSweep (hi := 0xD#4) (by decide) (by decide) n
  | statusE n => exact decode_statusWord ph hasSweep (hi := 0xE#4) (by decide) (by decide) n
  | sweep => rw [show hasSweep = true from hwf]; exact decode_sweepWord_present ph
  | poll => exact decode_pollWord ph hasSweep
  | readActive row p => exact decode_readActive ph hasSweep row p
  | readAccum row p => exact decode_readAccum ph hasSweep row p
  | _ => exact decode_byteWord ph hasSweep _

/-- Settles O5: each word's row is computed. -/
theorem wordsOfTheSpecDecode : Obligations.WordsOfTheSpecDecode :=
  ⟨rfl, rfl, rfl, rfl, rfl, rfl, rfl, rfl, rfl, rfl, rfl, rfl, rfl, rfl, rfl, rfl, rfl⟩

/-! ### The opcode table -/

/-- A row's condition on PHASE and HAS_SWEEP (R85). -/
def conditionHolds (ph : Phase) (hasSweep : Bool) (r : OpcodeRow) : Prop :=
  (∀ q, r.phase = some q → q = ph) ∧ (r.needsSweep = true → hasSweep = true)

theorem covers_iff {ph : Phase} {hasSweep : Bool} {w : Word} {r : OpcodeRow} :
    r.covers ph hasSweep w = true ↔ w &&& r.mask = r.pattern ∧ conditionHolds ph hasSweep r := by
  obtain ⟨m, p, k, q, n⟩ := r
  cases q <;> cases n <;> simp [OpcodeRow.covers, conditionHolds, and_assoc]

theorem rowBits (i : Instr) : Laws.RowBits.Statement i := by
  open Laws.RowBits in
  cases i
  exacts [nop, data1 _, data2 _, noteOff _, noteOn _, statusA _, statusB _, statusC _, statusD _, statusE _, sysF0, sysF1,
    sysF2, sysF3, sysF4, sysF5, sysF6, sysF7, clock, sysF9, sysFA, sysFB, sysFC, sysFD, sysFE, sysFF, sweep, poll,
    readActive _ _, readAccum _ _]

/-- Three rows of R85's table have a condition. -/
theorem mnemonic_of_condition : ∀ r ∈ opcodeTable,
    (r.phase = some .awaitD1 → r.mnemonic = "BYTE.DATA1") ∧ (r.phase = some .awaitD2 → r.mnemonic = "BYTE.DATA2") ∧
      (r.needsSweep = true → r.mnemonic = "SWEEP") := by
  simp [opcodeTable, commandRows, voiceRows, systemRows]

/-- An instruction of such a row is admitted only under the row's condition. -/
theorem conditions_of_wellFormed {ph : Phase} {hasSweep : Bool} {i : Instr} (hwf : i.wellFormed ph hasSweep = true) :
    (i.mnemonic = "BYTE.DATA1" → ph = .awaitD1) ∧ (i.mnemonic = "BYTE.DATA2" → ph = .awaitD2) ∧
      (i.mnemonic = "SWEEP" → hasSweep = true) := by
  cases i with
  | data1 d => exact ⟨fun _ => of_decide_eq_true hwf, by simp [Instr.mnemonic], by simp [Instr.mnemonic]⟩
  | data2 vel => exact ⟨by simp [Instr.mnemonic], fun _ => of_decide_eq_true hwf, by simp [Instr.mnemonic]⟩
  | sweep => exact ⟨by simp [Instr.mnemonic], by simp [Instr.mnemonic], fun _ => hwf⟩
  | _ => simp [Instr.mnemonic]

/-- An admitted instruction's row covers its word. -/
theorem exists_row_covers {ph : Phase} {hasSweep : Bool} {i : Instr} (hwf : i.wellFormed ph hasSweep = true) :
    ∃ r ∈ opcodeTable, r.mnemonic = i.mnemonic ∧ r.covers ph hasSweep (encode i) = true := by
  obtain ⟨r, hr, hmn, hbits⟩ := rowBits i
  obtain ⟨hrow1, hrow2, hrowSweep⟩ := mnemonic_of_condition r hr
  obtain ⟨hph1, hph2, hsweep⟩ := conditions_of_wellFormed hwf
  rw [hmn] at hrow1 hrow2 hrowSweep
  refine ⟨r, hr, hmn, covers_iff.mpr ⟨hbits, fun q hq => ?_, fun hs => hsweep (hrowSweep hs)⟩⟩
  cases q with
  | awaitD1 => exact (hph1 (hrow1 hq)).symm
  | awaitD2 => exact (hph2 (hrow2 hq)).symm

/-- The rows differ in a bit that both fix, or are the two data-byte rows, which differ in their PHASE. -/
abbrev rowsApart (r q : OpcodeRow) : Prop :=
  r.pattern &&& q.mask ≠ q.pattern &&& r.mask ∨ (r.phase = some .awaitD1 ∧ q.phase = some .awaitD2)

theorem opcodeTable_pairwise : opcodeTable.Pairwise rowsApart := by
  decide

/-- No word has two rows (R85). -/
theorem not_rowsApart_of_covers {ph : Phase} {hasSweep : Bool} {w : Word} {r q : OpcodeRow}
    (hr : r.covers ph hasSweep w = true) (hq : q.covers ph hasSweep w = true) : ¬ rowsApart r q := by
  obtain ⟨hrbits, hrphase, -⟩ := covers_iff.mp hr
  obtain ⟨hqbits, hqphase, -⟩ := covers_iff.mp hq
  rintro (hne | ⟨hr1, hq2⟩)
  · exact hne (by rw [← hrbits, ← hqbits, BitVec.and_assoc, BitVec.and_assoc, BitVec.and_comm r.mask])
  · exact absurd ((hrphase _ hr1).trans (hqphase _ hq2).symm) (by decide)

/-- Where each two elements are related by `R` and no two can be, there is only one. -/
theorem eq_singleton_of_pairwise {α : Type} {R : α → α → Prop} {l : List α} {a : α} (hl : l.Pairwise R)
    (hR : ∀ x ∈ l, ∀ y ∈ l, ¬ R x y) (ha : a ∈ l) : l = [a] := by
  match l with
  | [] => cases ha
  | [x] => rw [List.mem_singleton.mp ha]
  | x :: y :: l => exact absurd (List.rel_of_pairwise_cons hl (by simp)) (hR x (by simp) y (by simp))

theorem filter_covers_eq_singleton {ph : Phase} {hasSweep : Bool} {w : Word} {r : OpcodeRow} (hmem : r ∈ opcodeTable)
    (hr : r.covers ph hasSweep w = true) : opcodeTable.filter (OpcodeRow.covers ph hasSweep w) = [r] :=
  eq_singleton_of_pairwise (opcodeTable_pairwise.filter _)
    (fun _ hx _ hy => not_rowsApart_of_covers (List.mem_filter.mp hx).2 (List.mem_filter.mp hy).2)
    (List.mem_filter.mpr ⟨hmem, hr⟩)

/-- The fixed bits by the kind of row: the BYTE rows share the high byte 0x20, and the READ rows fix bits 15 to 11. -/
theorem row_bits_cases : ∀ r ∈ opcodeTable,
    (r.mask &&& 0xFF00#16 = 0xFF00#16 ∧ r.pattern &&& 0xFF00#16 = 0x2000#16) ∨
    (r.mask = 0xFFFF#16 ∧ (r.pattern = 0x0000#16 ∨ r.pattern = 0x6000#16 ∨ (r.pattern = 0x4000#16 ∧ r.needsSweep = true))) ∨
    (r.mask = 0xF800#16 ∧ (r.pattern = 0x8000#16 ∨ r.pattern = 0xA000#16)) := by
  decide

theorem not_reservedWord_of_covers {ph : Phase} {hasSweep : Bool} {w : Word} {r : OpcodeRow} (hmem : r ∈ opcodeTable)
    (hr : r.covers ph hasSweep w = true) : reservedWord hasSweep w = false := by
  obtain ⟨hbits, -, hsweep⟩ := covers_iff.mp hr
  have h8 := and_highMask_toNat w 8 (by decide)
  have h11 := and_highMask_toNat w 11 (by decide)
  rw [Bool.eq_false_iff, Ne, reservedWord_iff]
  simp only [← BitVec.toNat_inj (x := cmdOf w), cmdOf_toNat, BitVec.toNat_ofNat]
  obtain ⟨hmask, hpat⟩ | ⟨hmask, hpat⟩ | ⟨hmask, hpat⟩ := row_bits_cases r hmem
  · have hw : w &&& 0xFF00#16 = 0x2000#16 := by rw [← hmask, ← BitVec.and_assoc, hbits, hpat]
    rw [show BitVec.ofNat 16 (2 ^ 16 - 2 ^ 8) = 0xFF00#16 from rfl, hw, BitVec.toNat_ofNat] at h8
    omega
  · rw [hmask, show w &&& 0xFFFF#16 = w from BitVec.and_allOnes] at hbits
    subst hbits
    obtain h | h | ⟨h, hs⟩ := hpat
    · simp [h]
    · simp [h]
    · simp [h, hsweep hs]
  · rw [hmask] at hbits
    rw [show BitVec.ofNat 16 (2 ^ 16 - 2 ^ 11) = 0xF800#16 from rfl, hbits] at h11
    obtain h | h := hpat
    · rw [h, BitVec.toNat_ofNat] at h11; omega
    · rw [h, BitVec.toNat_ofNat] at h11; omega

theorem filter_covers_eq_nil {ph : Phase} {hasSweep : Bool} {w : Word} (h : reservedWord hasSweep w = true) :
    opcodeTable.filter (OpcodeRow.covers ph hasSweep w) = [] :=
  List.filter_eq_nil_iff.mpr fun _ hmem hr => by simp [not_reservedWord_of_covers hmem hr] at h

/-- Settles O3: a word that decodes is covered by its instruction's row, and so by no other; a reserved word is covered by none.
The seven ranges are R78's cases as numbers. -/
theorem wordHasExactlyItsTableRow : Obligations.WordHasExactlyItsTableRow := by
  refine ⟨fun ph hasSweep w => ?_, fun ph w => ?_⟩
  · rcases hdec : decode ph hasSweep w with e | i
    · rw [filter_covers_eq_nil ((exists_decode_eq_error_iff ph hasSweep w).mp ⟨e, hdec⟩)]
      rfl
    · obtain ⟨r, hmem, hmn, hcov⟩ := exists_row_covers (wellFormed_of_decode_eq_ok hdec)
      rw [encode_of_decode_eq_ok hdec] at hcov
      rw [filter_covers_eq_singleton hmem hcov, List.map_singleton, hmn]
  · have := w.isLt
    rw [exists_decode_eq_error_iff, reservedWord_iff]
    simp only [← BitVec.toNat_inj (x := cmdOf w), cmdOf_toNat, BitVec.toNat_ofNat, reduceCtorEq, and_false, or_false]
    omega

end Sys2Proof.Machine
end

section
/-! PROOFS. What each row writes of the block (R20, R54, R158), said once from the seven operations, and from it the invariant of
the reachable states (R38, R39, R42 to R44). -/

namespace Sys2Proof.Machine

/-! ### What a row writes -/

section

variable {cfg : Config} {i : Instr} {b c : Block} {r : Response}

/-- The block after a row, by the seven operations that write it. -/
theorem blockExec_writes (h : blockExec cfg i b = .ok (r, c)) :
    (∃ x : Byte, 0x80 ≤ x.toNat ∧ x.toNat ≤ 0xEF ∧ encode i = byteWord x ∧ c = latchStatus x b) ∨
    (∃ d, i = .data1 d ∧ c = storeFirst d b) ∨
    (∃ vel, i = .data2 vel ∧ c = (completeMessage vel b).2) ∨
    (i = .clock ∧ c = latchSync (clockStep cfg.subdiv b).1 (clockStep cfg.subdiv b).2) ∨
    (i = .poll ∧ c = clearSync b) ∨
    (i = .sweep ∧ c = sweepGrids b) ∨
    c = b := by
  obtain ⟨x, hlo, hhi, hx, -, hc⟩ | ⟨d, hi, -, -, hc⟩ | ⟨vel, hi, -, hrc⟩ | ⟨-, -, hc⟩ | ⟨hi, -, hc⟩ | ⟨hi, -, hc⟩ |
    ⟨hi, -, -, hc⟩ | ⟨-, -, -, -, hc⟩ | ⟨-, -, -, -, hc⟩ := blockExec_cases h
  · exact .inl ⟨x, hlo, hhi, hx, hc⟩
  · exact .inr (.inl ⟨d, hi, hc⟩)
  · exact .inr (.inr (.inl ⟨vel, hi, congrArg Prod.snd hrc⟩))
  · exact .inr (.inr (.inr (.inr (.inr (.inr hc)))))
  · exact .inr (.inr (.inr (.inl ⟨hi, hc⟩)))
  · exact .inr (.inr (.inr (.inr (.inl ⟨hi, hc⟩))))
  · exact .inr (.inr (.inr (.inr (.inr (.inl ⟨hi, hc⟩)))))
  · exact .inr (.inr (.inr (.inr (.inr (.inr hc)))))
  · exact .inr (.inr (.inr (.inr (.inr (.inr hc)))))

theorem isStatusWord_byteWord_iff (x : Byte) : isStatusWord (byteWord x) = true ↔ 0x80 ≤ x.toNat ∧ x.toNat ≤ 0xEF := by
  simp only [isStatusWord, byteWord_toNat, decide_eq_true_eq]
  omega

/-- What a completion does to the grids: a velocity in both at one cell, 0 in ACTIVE at one cell, or nothing. -/
theorem memRead_completeMessage_cases (vel : BitVec 7) (b : Block) :
    (∃ x, vel ≠ 0#7 ∧ ∀ g a, memRead g a (completeMessage vel b).2 = if a = x then vel.setWidth 8 else memRead g a b) ∨
    (∃ x, ∀ g a, memRead g a (completeMessage vel b).2 = if g = .active ∧ a = x then 0#8 else memRead g a b) ∨
    sameGrids b (completeMessage vel b).2 := by
  obtain ⟨hok, -⟩ | ⟨-, h⟩ := completeMessage_cases vel b
  · obtain ⟨h₁, h₁₆⟩ := (rangeOK_iff b.chan b.d1).mp hok
    cases hkind : resolve b.status vel with
    | noteOn =>
      exact .inl ⟨_, ne_zero_of_resolve_eq_noteOn hkind, fun g a => memRead_completeMessage_noteOn h₁ h₁₆ hkind g a⟩
    | noteOff => exact .inr (.inl ⟨_, fun g a => memRead_completeMessage_noteOff h₁ h₁₆ hkind g a⟩)
    | other => exact .inr (.inr (sameGrids_completeMessage_other h₁ h₁₆ hkind))
  · exact .inr (.inr fun g a => by rw [h, memRead_awaitFirst])

/-- What a row does to the grids. -/
theorem memRead_blockExec_cases (h : blockExec cfg i b = .ok (r, c)) :
    (∃ vel, i = .data2 vel ∧ c = (completeMessage vel b).2) ∨ (i = .sweep ∧ c = sweepGrids b) ∨ sameGrids b c := by
  obtain ⟨x, -, -, -, rfl⟩ | ⟨d, -, rfl⟩ | h2 | ⟨-, rfl⟩ | ⟨-, rfl⟩ | hsw | rfl := blockExec_writes h
  · exact .inr (.inr fun g a => memRead_latchStatus b g a x)
  · exact .inr (.inr fun g a => memRead_storeFirst b g a d)
  · exact .inl h2
  · exact .inr (.inr fun g a => by rw [memRead_latchSync, memRead_clockStep])
  · exact .inr (.inr fun g a => memRead_clearSync b g a)
  · exact .inr (.inl hsw)
  · exact .inr (.inr fun _ _ => rfl)

theorem statusAndChan_of_not_isStatusWord (h : blockExec cfg i b = .ok (r, c)) (hi : isStatusWord (encode i) = false) :
    c.status = b.status ∧ c.chan = b.chan := by
  obtain ⟨x, hlo, hhi, hx, -⟩ | ⟨d, -, rfl⟩ | ⟨vel, -, rfl⟩ | ⟨-, rfl⟩ | ⟨-, rfl⟩ | ⟨-, rfl⟩ | rfl := blockExec_writes h
  · rw [hx, (isStatusWord_byteWord_iff x).mpr ⟨hlo, hhi⟩] at hi
    cases hi
  · exact ⟨rfl, rfl⟩
  · obtain ⟨-, hstatus, hchan, -⟩ := completeMessage_registers vel b
    exact ⟨hstatus, hchan⟩
  · simp
  · exact ⟨rfl, rfl⟩
  · exact ⟨rfl, rfl⟩
  · exact ⟨rfl, rfl⟩

theorem d1_of_ne_data1 (h : blockExec cfg i b = .ok (r, c)) (hi : ∀ d, i ≠ .data1 d) : c.d1 = b.d1 := by
  obtain ⟨x, -, -, -, rfl⟩ | ⟨d, rfl, -⟩ | ⟨vel, -, rfl⟩ | ⟨-, rfl⟩ | ⟨-, rfl⟩ | ⟨-, rfl⟩ | rfl := blockExec_writes h
  · rfl
  · exact absurd rfl (hi d)
  · obtain ⟨-, -, -, hd1, -⟩ := completeMessage_registers vel b
    exact hd1
  · simp
  · rfl
  · rfl
  · rfl

theorem row_of_phase_ne (h : blockExec cfg i b = .ok (r, c)) (hph : c.phase ≠ b.phase) :
    isStatusWord (encode i) = true ∨ (∃ d, i = .data1 d) ∨ ∃ vel, i = .data2 vel := by
  obtain ⟨x, hlo, hhi, hx, -⟩ | ⟨d, hi, -⟩ | ⟨vel, hi, -⟩ | ⟨-, rfl⟩ | ⟨-, rfl⟩ | ⟨-, rfl⟩ | rfl := blockExec_writes h
  · exact .inl (hx ▸ (isStatusWord_byteWord_iff x).mpr ⟨hlo, hhi⟩)
  · exact .inr (.inl ⟨d, hi⟩)
  · exact .inr (.inr ⟨vel, hi⟩)
  · simp at hph
  · exact absurd rfl hph
  · exact absurd rfl hph
  · exact absurd rfl hph

theorem sameDivider_of_ne_clock (h : blockExec cfg i b = .ok (r, c)) (hi : i ≠ .clock) : sameDivider b c := by
  obtain ⟨x, -, -, -, rfl⟩ | ⟨d, -, rfl⟩ | ⟨vel, -, rfl⟩ | ⟨hclock, -⟩ | ⟨-, rfl⟩ | ⟨-, rfl⟩ | rfl := blockExec_writes h
  · exact ⟨rfl, rfl⟩
  · exact ⟨rfl, rfl⟩
  · obtain ⟨-, -, -, -, hdiv, -⟩ := completeMessage_registers vel b
    exact hdiv
  · exact absurd hclock hi
  · exact ⟨rfl, rfl⟩
  · exact ⟨rfl, rfl⟩
  · exact ⟨rfl, rfl⟩

theorem syncSeen_of_ne_clock_ne_poll (h : blockExec cfg i b = .ok (r, c)) (hi : i ≠ .clock) (hi' : i ≠ .poll) :
    c.syncSeen = b.syncSeen := by
  obtain ⟨x, -, -, -, rfl⟩ | ⟨d, -, rfl⟩ | ⟨vel, -, rfl⟩ | ⟨hclock, -⟩ | ⟨hpoll, -⟩ | ⟨-, rfl⟩ | rfl := blockExec_writes h
  · rfl
  · rfl
  · obtain ⟨-, -, -, -, -, hsync⟩ := completeMessage_registers vel b
    exact hsync
  · exact absurd hclock hi
  · exact absurd hpoll hi'
  · rfl
  · rfl

end

/-- Settles O46: the contrapositives of the frames above, and the system keeps the parameters and the further inputs. -/
theorem stateIsWrittenOnlyByItsRows : Obligations.StateIsWrittenOnlyByItsRows := by
  intro i s t hexec
  obtain ⟨r, c, h, rfl⟩ := exec_next hexec
  refine ⟨fun hne => ?_, fun hne => ?_, row_of_phase_ne h, fun hne => ?_, fun hne => ?_, ?_, ?_, rfl, rfl⟩
  · by_contra hi
    obtain ⟨hstatus, hchan⟩ := statusAndChan_of_not_isStatusWord h (Bool.eq_false_iff.mpr hi)
    exact hne.elim (absurd hstatus) (absurd hchan)
  · by_contra hi
    exact hne (d1_of_ne_data1 h fun d hd => hi ⟨d, hd⟩)
  · by_contra hi
    obtain ⟨hc1, hc2⟩ := sameDivider_of_ne_clock h hi
    exact hne.elim (absurd hc1) (absurd hc2)
  · by_contra hi
    obtain ⟨hclock, hpoll⟩ := not_or.mp hi
    exact hne (syncSeen_of_ne_clock_ne_poll h hclock hpoll)
  · rintro ⟨a, ha⟩
    obtain ⟨vel, hi, -⟩ | ⟨-, rfl⟩ | hsame := memRead_blockExec_cases h
    · exact ⟨vel, hi⟩
    · exact absurd (memRead_sweepGrids_active a s.block) ha
    · exact absurd (hsame .active a) ha
  · rintro ⟨a, ha⟩
    obtain ⟨vel, hi, -⟩ | ⟨hi, -⟩ | hsame := memRead_blockExec_cases h
    · exact .inl ⟨vel, hi⟩
    · exact .inr hi
    · exact absurd (hsame .accum a) ha

/-- Settles O38: a NOTE_ON writes a velocity that is not 0, a NOTE_OFF leaves ACCUM alone, and a SWEEP clears silent cells. -/
theorem onlySweepClearsAccum : Obligations.OnlySweepClearsAccum := by
  intro i s t a hexec hne hzero
  obtain ⟨r, c, h, rfl⟩ := exec_next hexec
  rw [answered_block] at hzero
  obtain ⟨vel, -, rfl⟩ | ⟨hi, rfl⟩ | hsame := memRead_blockExec_cases h
  · exfalso
    obtain ⟨x, hvel, hread⟩ | ⟨x, hread⟩ | hsame := memRead_completeMessage_cases vel s.block
    · rw [hread] at hzero
      split at hzero
      · exact cell_ne_zero vel hvel hzero
      · exact hne hzero
    · exact hne (by simpa [hread] using hzero)
    · exact hne ((hsame .accum a).symm.trans hzero)
  · rw [memRead_sweepGrids_accum] at hzero
    split at hzero
    · exact ⟨hi, ‹_›⟩
    · exact absurd hzero hne
  · exact absurd ((hsame .accum a).symm.trans hzero) hne

/-! ### The invariant -/

theorem statusAndChan_legal {x : Byte} (h₁ : 0x80 ≤ x.toNat) (h₂ : x.toNat ≤ 0xEF) :
    statusOf x ∈ legalStatus ∧ (channelOf x).toNat ≤ 16 ∧ channelOf x ≠ 0#5 ∧ statusOf x ≠ 0x00#8 := by
  revert x
  decide

/-- The invariant reads neither D1, PHASE, C1 nor SYNC_SEEN. -/
theorem Block.Inv.congr {d : Subdiv} {b c : Block} (h : b.Inv d) (hstatus : c.status = b.status) (hchan : c.chan = b.chan)
    (hc2 : c.c2.toNat ≤ (thresh d).toNat) (hact : c.active = b.active) (hacc : c.accum = b.accum) : c.Inv d := by
  obtain ⟨s, n, d1, ph, c1, c2, q, m, m'⟩ := c
  simp only at hstatus hchan hact hacc
  subst hstatus hchan hact hacc
  exact ⟨h.status_legal, h.chan_le, h.chan_zero_iff, hc2, h.cell_le, h.sounding_mirrored, h.active_wf, h.accum_wf⟩

theorem inv_latchStatus {d : Subdiv} {b : Block} (h : b.Inv d) {x : Byte} (h₁ : 0x80 ≤ x.toNat) (h₂ : x.toNat ≤ 0xEF) :
    (latchStatus x b).Inv d := by
  obtain ⟨hlegal, hle, hchan, hstatus⟩ := statusAndChan_legal h₁ h₂
  exact ⟨hlegal, hle, ⟨fun hz => absurd hz hchan, fun hz => absurd hz hstatus⟩, h.c2_le, h.cell_le, h.sounding_mirrored,
    h.active_wf, h.accum_wf⟩

/-- The counter is compared with THRESH before it is advanced, so it does not pass it (R42, R181). -/
theorem clockStep_c2_le {d : Subdiv} {b : Block} (h : b.c2.toNat ≤ (thresh d).toNat) :
    (clockStep d b).2.c2.toNat ≤ (thresh d).toNat := by
  obtain ⟨-, -, hstep⟩ | ⟨-, hne, hstep⟩ | ⟨-, hstep⟩ := clockStep_cases d b
  · simp [hstep]
  · have hlt : b.c2.toNat ≠ (thresh d).toNat := fun he => hne (BitVec.eq_of_toNat_eq he)
    rw [hstep, BitVec.toNat_add, BitVec.toNat_ofNat]
    omega
  · rw [hstep]
    exact h

theorem noteTableApply_wf (e : VoiceEvent) {b : Block} (h₁ : b.active.wf = true) (h₂ : b.accum.wf = true) :
    (noteTableApply e b).active.wf = true ∧ (noteTableApply e b).accum.wf = true := by
  obtain ⟨-, h⟩ | ⟨-, h⟩ | ⟨-, h⟩ := noteTableApply_cases e b
  · obtain ⟨hact, hacc⟩ := memWrite_wf .active (cellAddr (rowOf e.chan) e.pitch) (e.vel.setWidth 8) b h₁ h₂
    rw [h]
    exact memWrite_wf .accum _ _ _ hact hacc
  · rw [h]
    exact memWrite_wf .active _ _ b h₁ h₂
  · rw [h]
    exact ⟨h₁, h₂⟩

theorem completeMessage_wf (vel : BitVec 7) {b : Block} (h₁ : b.active.wf = true) (h₂ : b.accum.wf = true) :
    (completeMessage vel b).2.active.wf = true ∧ (completeMessage vel b).2.accum.wf = true := by
  obtain ⟨-, h⟩ | ⟨-, h⟩ := completeMessage_cases vel b
  · rw [h]
    exact noteTableApply_wf _ h₁ h₂
  · rw [h]
    exact ⟨h₁, h₂⟩

theorem cell_le_127 (vel : BitVec 7) : (vel.setWidth 8 : Byte).toNat ≤ 127 := by
  rw [BitVec.toNat_setWidth]
  omega

/-- A completion keeps R43 and R44: a NOTE_ON writes the same velocity to both grids, a NOTE_OFF silences ACTIVE only. -/
theorem completeMessage_cells {b : Block} (hle : ∀ g a, (memRead g a b).toNat ≤ 127)
    (hmir : ∀ a, memRead .active a b ≠ 0#8 → memRead .accum a b = memRead .active a b) (vel : BitVec 7) :
    (∀ g a, (memRead g a (completeMessage vel b).2).toNat ≤ 127) ∧
      ∀ a, memRead .active a (completeMessage vel b).2 ≠ 0#8 →
        memRead .accum a (completeMessage vel b).2 = memRead .active a (completeMessage vel b).2 := by
  obtain ⟨x, -, hread⟩ | ⟨x, hread⟩ | hsame := memRead_completeMessage_cases vel b
  · simp only [hread]
    refine ⟨fun g a => ?_, fun a ha => ?_⟩
    · split
      · exact cell_le_127 vel
      · exact hle g a
    · split
      · rfl
      · exact hmir a (by simpa only [if_neg ‹_›] using ha)
  · simp only [hread]
    refine ⟨fun g a => ?_, fun a ha => ?_⟩
    · split
      · exact Nat.zero_le _
      · exact hle g a
    · by_cases hx : a = x
      · simp [hx] at ha
      · simpa [hx] using hmir a (by simpa [hx] using ha)
  · exact ⟨fun g a => hsame g a ▸ hle g a, fun a ha => by
      rw [hsame .accum a, hsame .active a]; exact hmir a (hsame .active a ▸ ha)⟩

theorem inv_completeMessage {d : Subdiv} {b : Block} (h : b.Inv d) (vel : BitVec 7) : (completeMessage vel b).2.Inv d := by
  obtain ⟨-, hstatus, hchan, -, ⟨-, hc2⟩, -⟩ := completeMessage_registers vel b
  obtain ⟨hle, hmir⟩ := completeMessage_cells h.cell_le h.sounding_mirrored vel
  obtain ⟨hact, hacc⟩ := completeMessage_wf vel h.active_wf h.accum_wf
  exact ⟨hstatus ▸ h.status_legal, hchan ▸ h.chan_le, by rw [hstatus, hchan]; exact h.chan_zero_iff, hc2 ▸ h.c2_le, hle, hmir,
    hact, hacc⟩

theorem inv_sweepGrids {d : Subdiv} {b : Block} (h : b.Inv d) : (sweepGrids b).Inv d := by
  refine ⟨h.status_legal, h.chan_le, h.chan_zero_iff, h.c2_le, fun g a => ?_, fun a ha => ?_, h.active_wf,
    wf_sweptAccum _ _ h.accum_wf⟩
  · cases g with
    | active => exact h.cell_le .active a
    | accum =>
      rw [memRead_sweepGrids_accum]
      split
      · exact Nat.zero_le _
      · exact h.cell_le .accum a
  · rw [memRead_sweepGrids_active] at ha ⊢
    rw [memRead_sweepGrids_accum, if_neg ha]
    exact h.sounding_mirrored a ha

theorem inv_blockExec {cfg : Config} {i : Instr} {b c : Block} {r : Response} (hinv : b.Inv cfg.subdiv)
    (h : blockExec cfg i b = .ok (r, c)) : c.Inv cfg.subdiv := by
  obtain ⟨x, hlo, hhi, -, rfl⟩ | ⟨d, -, rfl⟩ | ⟨vel, -, rfl⟩ | ⟨-, rfl⟩ | ⟨-, rfl⟩ | ⟨-, rfl⟩ | rfl := blockExec_writes h
  · exact inv_latchStatus hinv hlo hhi
  · exact hinv.congr rfl rfl hinv.c2_le rfl rfl
  · exact inv_completeMessage hinv vel
  · exact hinv.congr (by simp) (by simp) (clockStep_c2_le hinv.c2_le) (by simp) (by simp)
  · exact hinv.congr rfl rfl hinv.c2_le rfl rfl
  · exact inv_sweepGrids hinv
  · exact hinv

theorem inv_reset (d : Subdiv) : Block.reset.Inv d where
  status_legal := by decide
  chan_le := by decide
  chan_zero_iff := ⟨fun _ => rfl, fun _ => rfl⟩
  c2_le := Nat.zero_le _
  cell_le g a := by simp
  sounding_mirrored a ha := by simp at ha
  active_wf := rfl
  accum_wf := rfl

/-- Settles O44: every clause is read off the reset block. -/
theorem invariantHoldsAtReset : Obligations.InvariantHoldsAtReset := fun cfg => inv_reset cfg.subdiv

/-- The system after a word is accepted: the word is a row's encoding, and the block is that row's. -/
theorem acceptWord_blockExec {w : Word} {s t : State} (h : acceptWord w s = .next t) :
    ∃ i r c, decode s.block.phase s.cfg.hasSweep w = .ok i ∧ encode i = w ∧ blockExec s.cfg i s.block = .ok (r, c) ∧
      t = answered r c s := by
  obtain ⟨i, hdec, hexec⟩ := acceptWord_next h
  obtain ⟨r, c, hblock, ht⟩ := exec_next hexec
  exact ⟨i, r, c, hdec, encode_of_decode_eq_ok hdec, hblock, ht⟩

/-- Settles O45: an idle edge keeps the block, a reset edge leaves the reset block, and a command's row keeps each clause. -/
theorem everyStepKeepsTheInvariant : Obligations.EveryStepKeepsTheInvariant := by
  intro s t hinv hstep
  obtain ⟨-, rfl⟩ | ⟨p, rest, -, ⟨-, rfl⟩ | ⟨-, -, haccept⟩ | ⟨-, -, rfl⟩⟩ := step_cases hstep
  · exact hinv
  · exact inv_reset s.cfg.subdiv
  · obtain ⟨i, r, c, -, -, hblock, rfl⟩ := acceptWord_blockExec haccept
    exact inv_blockExec (cfg := s.cfg) hinv hblock
  · exact hinv

/-- Settles O47: `idle` and `hostReset` keep the parameters, and so does the answer to a command. -/
theorem parametersNeverChange : Obligations.ParametersNeverChange := by
  intro s t hstep
  obtain ⟨-, rfl⟩ | ⟨p, rest, -, ⟨-, rfl⟩ | ⟨-, -, haccept⟩ | ⟨-, -, rfl⟩⟩ := step_cases hstep
  · rfl
  · rfl
  · obtain ⟨i, r, c, -, -, -, rfl⟩ := acceptWord_blockExec haccept
    rfl
  · rfl

end Sys2Proof.Machine
end

section
/-! PROOFS. Progress (R227), what a response excludes (R229), and the edges of `clk` with and without a command (R61, R71, R236). -/

namespace Sys2Proof.Machine

/-! ### Progress -/

theorem exists_perform_eq_next_iff (a : Answer) (s : State) : (∃ t, perform a s = .next t) ↔ ∃ x, a = .ok x := by
  rcases a with e | ⟨r, b⟩ <;> simp

theorem eq_error_of_not_ok {a : Answer} (h : ¬ ∃ x, a = .ok x) : ∃ e, a = .error e := by
  rcases a with e | x
  · exact ⟨e, rfl⟩
  · exact absurd ⟨x, rfl⟩ h

/-- Settles O49: the block answers exactly where the row's condition holds, and an answer is a next state. -/
theorem admittedInstructionsAnswer : Obligations.AdmittedInstructionsAnswer := by
  intro i s
  rw [exec_eq_perform, exists_perform_eq_next_iff, exists_perform_eq_refused_iff]
  have hiff := exists_blockExec_eq_ok_iff s.cfg i s.block
  exact ⟨hiff.mpr, fun hwf => eq_error_of_not_ok (mt hiff.mp (by simp [hwf]))⟩

theorem exists_acceptWord_next {w : Word} {s : State} (h : reservedWord s.cfg.hasSweep w = false) :
    ∃ r c, acceptWord w s = .next (answered r c s) := by
  rw [acceptWord_eq_perform]
  rcases hb : blockStep s.cfg w s.block with e | ⟨r, c⟩
  · rw [(exists_blockStep_eq_error_iff s.cfg w s.block).mp ⟨e, hb⟩] at h
    cases h
  · exact ⟨r, c, rfl⟩

theorem runWords_cons_of_acceptWord {w : Word} {s u : State} (h : acceptWord w s = .next u) (ws : List Word) :
    runWords (w :: ws) s = runWords ws u := by
  simp only [runWords, h]

/-- Settles O50, by induction on the words: each has an answer, and the parameters R78 reads stay. -/
theorem unreservedStreamsNeverStop : Obligations.UnreservedStreamsNeverStop := by
  intro ws
  induction ws with
  | nil => exact fun s _ => ⟨s, rfl⟩
  | cons w ws ih =>
    intro s hws
    obtain ⟨hw, hws⟩ := List.forall_mem_cons.mp hws
    obtain ⟨r, c, hnext⟩ := exists_acceptWord_next hw
    rw [runWords_cons_of_acceptWord hnext]
    exact ih (answered r c s) hws

/-- Settles O52: by the kinds of response, EVENT and ERROR are the decoder's and sync the clock's. -/
theorem eventErrorAndSyncExclude : Obligations.EventErrorAndSyncExclude := by
  intro i s t r hexec hrsp
  obtain ⟨r', c, h, rfl⟩ := exec_next hexec
  obtain rfl : r' = r := Option.some.inj hrsp
  obtain rfl | ⟨vel, a, hi, rfl⟩ | ⟨q, hi, rfl⟩ | ⟨-, v, rfl⟩ := blockExec_response_cases h
  · exact ⟨fun hatt => absurd rfl hatt, fun hsync => absurd hsync (by decide)⟩
  · exact ⟨fun _ => ⟨⟨vel, hi⟩, attentionResponse_sync a⟩, fun hsync => by simp [attentionResponse_sync] at hsync⟩
  · exact ⟨fun hatt => absurd rfl hatt, fun _ => ⟨hi, rfl⟩⟩
  · exact ⟨fun hatt => absurd rfl hatt, fun hsync => absurd hsync (by simp [dataResponse])⟩

/-! ### Edges and the stream -/

/-- Settles O6: the step accepts the word, and accepting it is exec of its row. -/
theorem stepRunsTheDecodedInstruction : Obligations.StepRunsTheDecodedInstruction := by
  refine ⟨fun s w rest i hs hdec => ?_, fun s w i hdec => ?_⟩
  · rw [step_of_stream_command hs]
    exact acceptWord_of_decode_eq_ok (s := { s with stream := rest }) hdec
  · have hw : BitVec.ofNat 16 (w.toNat % 2 ^ 16) = w := by rw [Nat.mod_eq_of_lt w.isLt, BitVec.ofNat_toNat, BitVec.setWidth_eq]
    rw [State.withFetchWord, hw, step_of_stream_command (driveWord_stream s w)]
    exact acceptWord_of_decode_eq_ok hdec

theorem step_of_stream_nil {s : State} (hs : s.stream = []) : step s = .next (idle s) := by
  simp only [step, takeInput, hs]

theorem step_of_stream_idle {s : State} {p : PortInput} {rest : List PortInput} (hs : s.stream = p :: rest)
    (hrst : p.rst = false) (hvalid : p.cmdValid = false) : step s = .next (idle { s with stream := rest }) := by
  simp [step, takeInput, hs, clockEdge, hrst, hvalid]

/-- Settles O9: the first and the last are `idle`, which changes the response ports only, and a reset edge is `hostReset`. -/
theorem edgesWithoutACommandAnswerNothing : Obligations.EdgesWithoutACommandAnswerNothing :=
  ⟨fun s _ _ hs => ⟨fun hrst hvalid => ⟨_, step_of_stream_idle hs hrst hvalid, sameBlock_refl s.block, rfl, rfl, rfl⟩,
      fun hrst => ⟨_, step_of_stream_rst hs hrst, rfl, rfl, rfl⟩⟩,
    fun s hs => ⟨_, step_of_stream_nil hs, sameBlock_refl s.block, ⟨rfl, rfl⟩, rfl⟩⟩

/-- Settles O11, by induction on the words: a step takes one command and accepts it, and the next state's stream is the rest. -/
theorem streamRunIsTheRunOfItsWords : Obligations.StreamRunIsTheRunOfItsWords := by
  intro ws
  induction ws with
  | nil => exact fun _ => rfl
  | cons w ws ih =>
    intro s
    have hstep : core.step { s with stream := (w :: ws).map PortInput.command } =
        perform (blockStep s.cfg w s.block) { s with stream := ws.map PortInput.command } := by
      rw [← acceptWord_eq_perform w { s with stream := ws.map PortInput.command }]
      exact step_of_stream_command (s := { s with stream := (w :: ws).map PortInput.command }) rfl
    simp only [List.length_cons, Host.Core.run, hstep, runWords, acceptWord_eq_perform]
    rcases blockStep s.cfg w s.block with e | ⟨r, c⟩
    · rfl
    · exact ih (answered r c s)

end Sys2Proof.Machine
end

section
/-! PROOFS. Whole messages: running status, resynchronisation and the decode error (R116, R119, R137), DecoderFeed's table (R136),
and the laws of the note table that are about whole commands (R154, R157, R159, W3). -/

namespace Sys2Proof.Machine

/-! ### Messages -/

/-- Settles O18: under the invariant CHAN is at most 16, so the range check fails only at 0. -/
theorem errorExactlyWhileChannelIsZero : Obligations.ErrorExactlyWhileChannelIsZero := by
  intro vel s hinv hph
  have herror : (completeMessage vel s.block).1.att = 0b10#2 ↔ s.block.chan = 0#5 := by
    have hle := hinv.chan_le
    have hd1 := s.block.d1.isLt
    rw [completeMessage_att_eq_error_iff, ← BitVec.toNat_inj, BitVec.toNat_ofNat]
    omega
  exact ⟨_, _, exec_data2 hph vel, rfl, herror, herror.trans hinv.chan_zero_iff⟩

theorem acceptWord_statusByte {x : Byte} (h₁ : 0x80 ≤ x.toNat) (h₂ : x.toNat ≤ 0xEF) (s : State) :
    acceptWord (byteWord x) s = .next (answered Response.zero (latchStatus x s.block) s) := by
  have hsys : ¬ 0xF0 ≤ x.toNat := by omega
  have hmsb : x.msb = true := by rw [BitVec.msb_eq_decide]; exact decide_eq_true h₁
  rw [acceptWord_of_decode_eq_ok (decode_byteWord _ _ x), exec_eq_perform, blockExec_decodeByte,
    byteDispatch_of_ne_clock (by rintro rfl; exact hsys (by decide)), decoderFeed_of_status hsys hmsb]
  rfl

/-- Two data bytes from AWAIT_D1 complete the message of the held STATUS and CHAN. -/
theorem runWords_dataPair_eq_next {s : State} (hph : s.block.phase = .awaitD1) (d vel : BitVec 7) :
    runWords [0x2000#16 ||| d.setWidth 16, 0x2000#16 ||| vel.setWidth 16] s =
      .next (answered (completeMessage vel (storeFirst d s.block)).1 (completeMessage vel (storeFirst d s.block)).2 s) := by
  rw [runWords_dataPair hph, exec_data2 rfl]
  rfl

/-- A status byte and two data bytes, from any state (R119). -/
theorem runWords_message {x : Byte} (h₁ : 0x80 ≤ x.toNat) (h₂ : x.toNat ≤ 0xEF) (d vel : BitVec 7) (s : State) :
    runWords [byteWord x, 0x2000#16 ||| d.setWidth 16, 0x2000#16 ||| vel.setWidth 16] s =
      .next (answered (completeMessage vel (storeFirst d (latchStatus x s.block))).1
        (completeMessage vel (storeFirst d (latchStatus x s.block))).2 s) := by
  rw [runWords_cons_of_acceptWord (acceptWord_statusByte h₁ h₂ s), runWords_dataPair_eq_next rfl]
  rfl

theorem completeMessage_response_of_chan {b : Block} (h₁ : 1 ≤ b.chan.toNat) (h₁₆ : b.chan.toNat ≤ 16) (vel : BitVec 7) :
    (completeMessage vel b).1 =
      { att := 0b01#2, kind := kindCode (resolve b.status vel), chan := b.chan, pitch := b.d1, vel := vel } := by
  rw [completeMessage_of_inRange ⟨h₁, h₁₆, Nat.le_of_lt_succ b.d1.isLt⟩]
  rfl

/-- Settles O20: the pair stores and completes, and a completion keeps STATUS and CHAN. -/
theorem runningStatusPairIsAMessage : Obligations.RunningStatusPairIsAMessage := by
  intro d vel s hph h₁ h₁₆
  obtain ⟨hphase, hstatus, hchan, -⟩ := completeMessage_registers vel (storeFirst d s.block)
  exact ⟨_, runWords_dataPair_eq_next hph d vel, hphase, hstatus, hchan,
    congrArg some (completeMessage_response_of_chan (b := storeFirst d s.block) h₁ h₁₆ vel)⟩

/-- Settles O21: the status byte is latched in AWAIT_D1 whatever the state was, with a channel in range, and the pair
completes its message. -/
theorem statusByteResynchronises : Obligations.StatusByteResynchronises := by
  intro x d vel s h₁ h₂
  have hchan : (channelOf x).toNat = x.toNat % 16 + 1 := channelOf_toNat x
  obtain ⟨hphase, -⟩ := completeMessage_registers vel (storeFirst d (latchStatus x s.block))
  have hrsp := completeMessage_response_of_chan (b := storeFirst d (latchStatus x s.block))
    (show 1 ≤ (channelOf x).toNat by omega) (show (channelOf x).toNat ≤ 16 by omega) vel
  rw [or_byteWord]
  exact ⟨_, _, runWords_message h₁ h₂ d vel s, congrArg some hrsp, rfl, hchan, rfl, rfl, rfl, hphase⟩

/-! ### DecoderFeed -/

theorem decoderFeed_of_secondData {x : Byte} (h : ¬ 0xF0 ≤ x.toNat) (hmsb : ¬ x.msb = true) {b : Block}
    (hph : b.phase = .awaitD2) :
    decoderFeed x b =
      if 1 ≤ b.chan.toNat ∧ b.chan.toNat ≤ 16 then (.event (completedEvent (dataOf x) b), awaitFirst b)
      else (.error, awaitFirst b) := by
  rw [decoderFeed, if_neg h, if_neg hmsb, if_neg (by simp [hph])]
  simp only [rangeOK_iff]

theorem dataOf_toNat {x : Byte} (h : x.toNat ≤ 0x7F) : (dataOf x).toNat = x.toNat := by
  rw [dataOf, BitVec.extractLsb'_toNat]
  omega

/-- DecoderFeed touches the decoder registers only. -/
theorem decoderFeed_frame (x : Byte) (b : Block) :
    sameDivider b (decoderFeed x b).2 ∧ (decoderFeed x b).2.syncSeen = b.syncSeen ∧ sameGrids b (decoderFeed x b).2 := by
  unfold decoderFeed
  split
  · exact ⟨⟨rfl, rfl⟩, rfl, fun _ _ => rfl⟩
  · split
    · exact ⟨⟨rfl, rfl⟩, rfl, fun g a => memRead_latchStatus b g a x⟩
    · split
      · exact ⟨⟨rfl, rfl⟩, rfl, fun g a => memRead_storeFirst b g a _⟩
      · split
        · exact ⟨⟨rfl, rfl⟩, rfl, fun g a => memRead_awaitFirst b g a⟩
        · exact ⟨⟨rfl, rfl⟩, rfl, fun g a => memRead_awaitFirst b g a⟩

/-- Settles O22: the clauses are DecoderFeed's branches, told apart by the byte's class and the phase. -/
theorem decoderTransitionTable : Obligations.DecoderTransitionTable := by
  intro x b
  have hmsb_iff : x.msb = true ↔ 0x80 ≤ x.toNat := by rw [BitVec.msb_eq_decide]; exact decide_eq_true_iff
  refine ⟨fun hsys => decoderFeed_of_system hsys b, fun hlo hhi => ?_, fun hdata => ?_, decoderFeed_frame x b⟩
  · rw [decoderFeed_of_status (by omega) (hmsb_iff.mpr hlo)]
    exact ⟨rfl, rfl, rfl, channelOf_toNat x, rfl⟩
  · have hsys : ¬ 0xF0 ≤ x.toNat := by omega
    have hmsb : ¬ x.msb = true := by rw [hmsb_iff]; omega
    cases hph : b.phase with
    | awaitD1 =>
      rw [decoderFeed_of_firstData hsys hmsb hph]
      exact ⟨rfl, rfl, fun _ => ⟨rfl, rfl, dataOf_toNat hdata⟩, fun h => by cases h⟩
    | awaitD2 =>
      rw [decoderFeed_of_secondData hsys hmsb hph]
      split
      next hin => simp [hin]
      next hin => simp [hin]

/-! ### The note table -/

/-- Settles O36: after 2048 rounds the loop has kept what the one pass keeps. -/
theorem sweepIsTheLoopOverAllCells : Obligations.SweepIsTheLoopOverAllCells := fun active _ h =>
  (sweepLoop_gridSize active h).symm

theorem sweepGrids_idem (b : Block) : sweepGrids (sweepGrids b) = sweepGrids b := by
  simp [sweepGrids, sweptAccum, List.filter_filter]

/-- Settles O37: what a sweep keeps, a second sweep by the same ACTIVE keeps. -/
theorem sweepIsIdempotent : Obligations.SweepIsIdempotent := by
  intro s t h
  cases hsw : s.cfg.hasSweep with
  | true =>
    rw [exec_sweep hsw] at h
    cases h
    have hagain := exec_sweep (s := answered Response.zero (sweepGrids s.block) s) hsw
    rw [answered_block, sweepGrids_idem] at hagain
    exact hagain
  | false =>
    rw [exec_sweep_absent hsw] at h
    cases h

theorem resolve_0x80 (vel : BitVec 7) : resolve 0x80#8 vel = .noteOff := by
  simp [resolve]

/-- Settles O39: both resolve to NOTE_OFF, whose effect on the cells reads neither STATUS nor the velocity. -/
theorem noteOnOfVelocityZeroIsANoteOff : Obligations.NoteOnOfVelocityZeroIsANoteOff := by
  intro vel s hph h₁ h₁₆
  have hon := memRead_completeMessage_noteOff (b := { s.block with status := 0x90#8 }) h₁ h₁₆ (resolve_zero 0x90#8)
  have hoff := memRead_completeMessage_noteOff (b := { s.block with status := 0x80#8 }) h₁ h₁₆ (resolve_0x80 vel)
  refine ⟨_, _, exec_data2 (s := { s with block.status := 0x90#8 }) hph 0#7,
    exec_data2 (s := { s with block.status := 0x80#8 }) hph vel, fun g a => (hon g a).trans (hoff g a).symm, ?_⟩
  rw [ofNat_cell s.block.chan s.block.d1 h₁ h₁₆]
  exact (hon .active _).trans (if_pos ⟨rfl, rfl⟩)

theorem asmByte_data {n : Nat} (h : n ≤ 127) : asmByte n = 0x2000#16 ||| (BitVec.ofNat 7 n).setWidth 16 := by
  apply BitVec.eq_of_toNat_eq
  rw [or_dataWord, asmByte_toNat (by omega), dataWord_toNat, BitVec.toNat_ofNat]
  omega

theorem asmByte_noteOn {c : Nat} (hc : c - 1 < 16) :
    asmByte (0x90 ||| (c - 1)) = byteWord (statusByte 0x9#4 (BitVec.ofNat 4 (c - 1))) := by
  have hn : (BitVec.ofNat 4 (c - 1)).toNat = c - 1 := by rw [BitVec.toNat_ofNat, Nat.mod_eq_of_lt hc]
  apply BitVec.eq_of_toNat_eq
  rw [statusByte, statusWord_toNat, hn]
  exact asmByte_status_toNat (hi := 0x9) (by decide) hc

theorem statusByte_noteOn (n : BitVec 4) :
    0x80 ≤ (statusByte 0x9#4 n).toNat ∧ (statusByte 0x9#4 n).toNat ≤ 0xEF ∧ rowOf (channelOf (statusByte 0x9#4 n)) = n ∧
      1 ≤ (channelOf (statusByte 0x9#4 n)).toNat ∧ (channelOf (statusByte 0x9#4 n)).toNat ≤ 16 := by
  revert n; decide

/-- A NOTE_ON message with a velocity above 0 leaves it at its cell, in both grids alike, whatever the block was. -/
theorem memRead_noteOnMessage (n : BitVec 4) (d : BitVec 7) {vel : BitVec 7} (hvel : vel ≠ 0#7) (b : Block) (g : Grid)
    (a : BitVec 11) :
    memRead g a (completeMessage vel (storeFirst d (latchStatus (statusByte 0x9#4 n) b))).2 =
      if a = cellAddr n d then vel.setWidth 8 else memRead g a b := by
  obtain ⟨-, -, hrow, h₁, h₁₆⟩ := statusByte_noteOn n
  have hkind : resolve (statusOf (statusByte 0x9#4 n)) vel = .noteOn := by
    rw [statusOf_statusByte, resolve_of_ne_zero _ hvel]
    rfl
  rw [memRead_completeMessage_noteOn (b := storeFirst d (latchStatus (statusByte 0x9#4 n) b)) h₁ h₁₆ hkind,
    memRead_storeFirst, memRead_latchStatus, storeFirst_chan, latchStatus_chan, storeFirst_d1, hrow]

/-- Settles O42: the line's words are the message of channel nibble c − 1, which completes as a NOTE_ON at its cell. -/
theorem noteOnMessageSoundsItsCell : Obligations.NoteOnMessageSoundsItsCell := by
  intro c p v s h₁ h₁₆ hp hv₁ hv
  have hc : c - 1 < 16 := by omega
  have hvel : BitVec.ofNat 7 v ≠ 0#7 := by
    rw [Ne, ← BitVec.toNat_inj, BitVec.toNat_ofNat, BitVec.toNat_ofNat]
    omega
  have hcell : BitVec.ofNat 11 ((c - 1) * 128 + p) = cellAddr (BitVec.ofNat 4 (c - 1)) (BitVec.ofNat 7 p) := by
    rw [← ofNat_cellAddr, BitVec.toNat_ofNat, BitVec.toNat_ofNat, Nat.mod_eq_of_lt hc, Nat.mod_eq_of_lt (by omega)]
  have hbyte : (BitVec.ofNat 7 v).setWidth 8 = BitVec.ofNat 8 v := by
    apply BitVec.eq_of_toNat_eq
    rw [BitVec.toNat_setWidth, BitVec.toNat_ofNat, BitVec.toNat_ofNat]
    omega
  obtain ⟨hlo, hhi, -⟩ := statusByte_noteOn (BitVec.ofNat 4 (c - 1))
  have hread := memRead_noteOnMessage (BitVec.ofNat 4 (c - 1)) (BitVec.ofNat 7 p) hvel s.block
  have hrun := runWords_message hlo hhi (BitVec.ofNat 7 p) (BitVec.ofNat 7 v) s
  rw [← asmByte_noteOn hc, ← asmByte_data hp, ← asmByte_data hv] at hrun
  refine ⟨_, _, assemble_of_wellFormed ((wellFormed_noteOn_iff c p v).mpr ⟨h₁, h₁₆, hp, hv⟩), hrun, fun g => ⟨?_, ?_⟩⟩
  · rw [hcell, ← hbyte]
    exact (hread g _).trans (if_pos rfl)
  · rw [hcell]
    exact fun a ha => (hread g a).trans (if_neg ha)

end Sys2Proof.Machine
end

section
/-! PROOFS. Runs, by induction on the words accepted: CHAN and STATUS (R39), the period law (R182), the coalescing law (R188) and
what ACCUM remembers (R45). -/

namespace Sys2Proof.Machine

/-! ### Runs, word by word -/

theorem runWords_append_of_next {us : List Word} {s m : State} (h : runWords us s = .next m) (ws : List Word) :
    runWords (us ++ ws) s = runWords ws m := by
  induction us generalizing s with
  | nil => cases h; rfl
  | cons w us ih =>
    obtain ⟨u, hu, h⟩ := runWords_cons_next h
    rw [List.cons_append, runWords_cons_of_acceptWord hu, ih h]

theorem runWords_snoc_of_next {ws : List Word} {w : Word} {s u t : State} (hu : runWords ws s = .next u)
    (ht : acceptWord w u = .next t) : runWords (ws ++ [w]) s = .next t := by
  rw [runWords_append_of_next hu, runWords_cons_of_acceptWord ht]
  rfl

/-- Induction over a run: what holds of no words and the first state, and is kept by each further word accepted, holds of the
words and the state they end in. -/
theorem runWords_induction {P : List Word → State → Prop} {s₀ : State} (nil : P [] s₀)
    (snoc : ∀ ws w u t, runWords ws s₀ = .next u → P ws u → acceptWord w u = .next t → P (ws ++ [w]) t)
    {ws : List Word} {s : State} (h : runWords ws s₀ = .next s) : P ws s := by
  induction ws using List.reverseRecOn generalizing s with
  | nil => cases h; exact nil
  | append_singleton ws w ih =>
    obtain ⟨u, hu, h⟩ := runWords_append_next h
    obtain ⟨t, ht, h⟩ := runWords_cons_next h
    cases h
    exact snoc ws w u _ hu (ih hu) ht

theorem runWords_cfg {ws : List Word} {s t : State} (h : runWords ws s = .next t) : t.cfg = s.cfg := by
  obtain ⟨rs, b, -, -, rfl⟩ := runWords_next h
  rfl

/-! ### CHAN and STATUS over a run -/

theorem exists_byteWord_of_isStatusWord {w : Word} (h : isStatusWord w = true) :
    ∃ x : Byte, 0x80 ≤ x.toNat ∧ x.toNat ≤ 0xEF ∧ w = byteWord x := by
  simp only [isStatusWord, decide_eq_true_eq] at h
  have hx := byteOf_toNat w
  refine ⟨byteOf w, by omega, by omega, BitVec.eq_of_toNat_eq ?_⟩
  rw [byteWord_toNat, hx]
  omega

theorem statusAndChan_of_isStatusWord {w : Word} {s t : State} (h : acceptWord w s = .next t) (hw : isStatusWord w = true) :
    t.block.chan ≠ 0#5 ∧ t.block.status ≠ 0x00#8 := by
  obtain ⟨x, hlo, hhi, rfl⟩ := exists_byteWord_of_isStatusWord hw
  rw [acceptWord_statusByte hlo hhi] at h
  cases h
  obtain ⟨-, -, hchan, hstatus⟩ := statusAndChan_legal hlo hhi
  exact ⟨hchan, hstatus⟩

/-- Settles O19, by induction over the run: a status byte leaves both registers non-zero, and every other word keeps both. -/
theorem channelIsZeroUntilTheFirstStatusByte : Obligations.ChannelIsZeroUntilTheFirstStatusByte := by
  intro cfg ws s hrun
  refine runWords_induction (P := fun ws s => (s.block.chan = 0#5 ↔ ∀ w ∈ ws, isStatusWord w = false) ∧
    (s.block.status = 0x00#8 ↔ ∀ w ∈ ws, isStatusWord w = false)) ⟨by simp [Block.reset], by simp [Block.reset]⟩ ?_ hrun
  rintro ws w u t - ⟨ihchan, ihstatus⟩ haccept
  simp only [List.forall_mem_append, List.forall_mem_singleton, ← ihchan]
  cases hw : isStatusWord w with
  | true =>
    obtain ⟨hchan, hstatus⟩ := statusAndChan_of_isStatusWord haccept hw
    simp [hchan, hstatus]
  | false =>
    obtain ⟨i, r, c, -, rfl, hblock, rfl⟩ := acceptWord_blockExec haccept
    obtain ⟨hstatus, hchan⟩ := statusAndChan_of_not_isStatusWord hblock hw
    simp [hstatus, hchan, ihchan, ihstatus]

/-! ### The period law -/

/-- What the two counters count together: clock bytes modulo 4·N (R182). -/
def ticks (b : Block) : Nat := b.c2.toNat * 4 + b.c1.toNat

theorem wrapsPerSync_bounds (d : Subdiv) : 1 ≤ wrapsPerSync d ∧ wrapsPerSync d ≤ 16 := by
  cases d <;> decide

/-- One clock byte advances the count by one, and the pulse is its return to 0: only the case of ClockStep in which C1 and C2
both are at their last values has a count of 4·N − 1. -/
theorem ticks_clockStep {d : Subdiv} {b : Block} (h : b.c2.toNat ≤ wrapsPerSync d - 1) :
    ticks (clockStep d b).2 = (ticks b + 1) % (4 * wrapsPerSync d) ∧
      ((clockStep d b).1 = true ↔ (ticks b + 1) % (4 * wrapsPerSync d) = 0) := by
  obtain ⟨hpos, hle⟩ := wrapsPerSync_bounds d
  have hthresh := thresh_toNat d
  have hc1lt := b.c1.isLt
  obtain ⟨hc1, hc2, hstep⟩ | ⟨hc1, hc2, hstep⟩ | ⟨hc1, hstep⟩ := clockStep_cases d b
  · have hlast : ticks b + 1 = 4 * wrapsPerSync d := by
      rw [ticks, hc1, hc2, hthresh, BitVec.toNat_ofNat]
      omega
    rw [hstep, hlast, Nat.mod_self]
    exact ⟨rfl, iff_of_true rfl rfl⟩
  · have hne : b.c2.toNat ≠ (thresh d).toNat := fun he => hc2 (BitVec.eq_of_toNat_eq he)
    have hnext : ticks { b with c1 := 0#2, c2 := b.c2 + 1#4 } = ticks b + 1 := by
      simp only [ticks, hc1, BitVec.toNat_add, BitVec.toNat_ofNat]
      omega
    have hlt : ticks b + 1 < 4 * wrapsPerSync d := by
      rw [ticks, hc1, BitVec.toNat_ofNat]
      omega
    rw [hstep, hnext, Nat.mod_eq_of_lt hlt]
    exact ⟨rfl, iff_of_false (by simp) (by simp)⟩
  · have hnext : ticks { b with c1 := b.c1 + 1#2 } = ticks b + 1 := by
      simp only [ticks, toNat_add_one_of_ne_three hc1]
      omega
    have hne : b.c1.toNat ≠ 3 := fun he => hc1 (BitVec.eq_of_toNat_eq he)
    have hlt : ticks b + 1 < 4 * wrapsPerSync d := by
      rw [ticks]
      omega
    rw [hstep, hnext, Nat.mod_eq_of_lt hlt]
    exact ⟨rfl, iff_of_false (by simp) (by simp)⟩

/-- Settles O28: the clock byte's counters and `sync` are those of ClockStep. -/
theorem clockByteCountsModuloThePeriod : Obligations.ClockByteCountsModuloThePeriod := by
  intro s hc2
  obtain ⟨hticks, hpulse⟩ := ticks_clockStep hc2
  exact ⟨_, _, exec_clock s, rfl, hticks, (syncResponse_sync_eq_one_iff _).trans hpulse⟩

theorem acceptWord_clockWord (s : State) : acceptWord clockWord s = exec .clock s :=
  acceptWord_of_decode_eq_ok (decode_clockWord _ _)

theorem ticks_of_ne_clockWord {w : Word} {s t : State} (h : acceptWord w s = .next t) (hw : w ≠ clockWord) :
    ticks t.block = ticks s.block := by
  obtain ⟨i, r, c, -, rfl, hblock, rfl⟩ := acceptWord_blockExec h
  obtain ⟨hc1, hc2⟩ := sameDivider_of_ne_clock hblock (by rintro rfl; exact hw rfl)
  rw [answered_block, ticks, hc1, hc2, ticks]

theorem c2_le_of_ticks_lt {b : Block} {n : Nat} (h : ticks b < 4 * n) : b.c2.toNat ≤ n - 1 := by
  unfold ticks at h
  omega

theorem ticks_eq_count_mod {cfg : Config} {ws : List Word} {s : State} (h : runWords ws (State.resetWith cfg) = .next s) :
    ticks s.block = ws.count clockWord % (4 * wrapsPerSync cfg.subdiv) := by
  refine runWords_induction (P := fun ws s => ticks s.block = ws.count clockWord % (4 * wrapsPerSync cfg.subdiv))
    (by simp [ticks, Block.reset]) ?_ h
  intro ws w u t hu ih haccept
  by_cases hw : w = clockWord
  · subst hw
    have hcfg : u.cfg = cfg := runWords_cfg hu
    have hpos := (wrapsPerSync_bounds cfg.subdiv).1
    have hc2 := c2_le_of_ticks_lt (ih ▸ Nat.mod_lt _ (by omega))
    rw [acceptWord_clockWord, exec_clock, hcfg] at haccept
    cases haccept
    calc ticks (clockStep cfg.subdiv u.block).2
      _ = (ticks u.block + 1) % (4 * wrapsPerSync cfg.subdiv) := (ticks_clockStep hc2).1
      _ = (ws ++ [clockWord]).count clockWord % (4 * wrapsPerSync cfg.subdiv) := by
        rw [ih, Nat.mod_add_mod, List.count_append, List.count_singleton_self]
  · rw [ticks_of_ne_clockWord haccept hw, ih, List.count_append, List.count_singleton]
    simp [hw]

/-- Settles O29: C1 and C2 are the remainder and the quotient by 4 of the count of clock bytes modulo 4·N. -/
theorem clockPeriodLaw : Obligations.ClockPeriodLaw := by
  intro cfg ws s hrun
  have hcfg : s.cfg = cfg := runWords_cfg hrun
  have hpos := (wrapsPerSync_bounds cfg.subdiv).1
  have hticks := ticks_eq_count_mod hrun
  have hc2 := c2_le_of_ticks_lt (hticks ▸ Nat.mod_lt _ (by omega))
  have hc1lt := s.block.c1.isLt
  have hdiv : s.block.c1.toNat = ticks s.block % 4 ∧ s.block.c2.toNat = ticks s.block / 4 := by
    unfold ticks
    omega
  refine ⟨?_, ?_, _, _, (acceptWord_clockWord s).trans (exec_clock s), rfl, ?_⟩
  · rw [hdiv.1, hticks, Nat.mod_mod_of_dvd _ (Nat.dvd_mul_right 4 _)]
  · rw [hdiv.2, hticks, Nat.mod_mul_right_div_self]
    rfl
  · rw [syncResponse_sync_eq_one_iff, hcfg, (ticks_clockStep hc2).2, hticks, Nat.mod_add_mod, Nat.dvd_iff_mod_eq_zero]
    rfl

/-! ### The coalescing law -/

/-- Some clock byte of `ws`, accepted in order from `s₀`, gave sync = 1. -/
def pulseFired (s₀ : State) (ws : List Word) : Prop :=
  ∃ pre post m, ws = pre ++ clockWord :: post ∧ runWords (pre ++ [clockWord]) s₀ = .next m ∧ syncFired m

/-- A word in a list with one more at its end is that one or stands in the list. -/
theorem append_singleton_eq_append_cons {ws pre post : List Word} {w v : Word} (h : ws ++ [w] = pre ++ v :: post) :
    (ws = pre ∧ w = v) ∨ ∃ post', ws = pre ++ v :: post' := by
  obtain rfl | ⟨post', x, rfl⟩ := post.eq_nil_or_concat
  · obtain ⟨hws, hw⟩ := List.append_inj' h rfl
    exact .inl ⟨hws, List.singleton_inj.mp hw⟩
  · rw [List.concat_eq_append, ← List.cons_append, ← List.append_assoc] at h
    exact .inr ⟨post', (List.append_inj' h rfl).1⟩

theorem pulseFired_snoc {s₀ t : State} {ws : List Word} {w : Word} (h : runWords (ws ++ [w]) s₀ = .next t) :
    pulseFired s₀ (ws ++ [w]) ↔ pulseFired s₀ ws ∨ (w = clockWord ∧ syncFired t) := by
  constructor
  · rintro ⟨pre, post, m, hsplit, hm, hfired⟩
    obtain ⟨rfl, rfl⟩ | ⟨post', rfl⟩ := append_singleton_eq_append_cons hsplit
    · rw [h] at hm
      cases hm
      exact .inr ⟨rfl, hfired⟩
    · exact .inl ⟨pre, post', m, rfl, hm, hfired⟩
  · rintro (⟨pre, post, m, rfl, hm, hfired⟩ | ⟨rfl, hfired⟩)
    · exact ⟨pre, post ++ [w], m, by simp, hm, hfired⟩
    · exact ⟨ws, [], t, rfl, h, hfired⟩

theorem acceptWord_pollWord (s : State) : acceptWord pollWord s = exec .poll s :=
  acceptWord_of_decode_eq_ok (decode_pollWord _ _)

/-- The latch after a word that is no POLL: a pulse sets it, and else it stays (R186). -/
theorem syncSeen_of_acceptWord {w : Word} {s t : State} (h : acceptWord w s = .next t) (hw : w ≠ pollWord) :
    t.block.syncSeen = true ↔ s.block.syncSeen = true ∨ (w = clockWord ∧ syncFired t) := by
  by_cases hclock : w = clockWord
  · subst hclock
    rw [acceptWord_clockWord, exec_clock] at h
    cases h
    simp [syncFired_answered_iff, syncResponse_sync_eq_one_iff, or_comm]
  · obtain ⟨i, r, c, -, rfl, hblock, rfl⟩ := acceptWord_blockExec h
    have hsame := syncSeen_of_ne_clock_ne_poll hblock (by rintro rfl; exact hclock rfl) (by rintro rfl; exact hw rfl)
    simp [hsame, hclock]

/-- R188's law for the latch itself: it is set exactly when a pulse fired since it was clear. -/
theorem syncSeen_iff_pulseFired {s₀ s : State} {ws : List Word} (hclear : s₀.block.syncSeen = false)
    (hpoll : pollWord ∉ ws) (h : runWords ws s₀ = .next s) : s.block.syncSeen = true ↔ pulseFired s₀ ws := by
  revert hpoll
  refine runWords_induction (P := fun ws s => pollWord ∉ ws → (s.block.syncSeen = true ↔ pulseFired s₀ ws)) ?_ ?_ h
  · simp [hclear, pulseFired]
  · intro ws w u t hu ih haccept hpoll
    rw [List.mem_append, List.mem_singleton, not_or] at hpoll
    obtain ⟨hws, hw⟩ := hpoll
    rw [syncSeen_of_acceptWord haccept (Ne.symm hw), ih hws, pulseFired_snoc (runWords_snoc_of_next hu haccept)]

theorem latchByte_cases (b : Block) :
    (latchByte b = 0#8 ∨ latchByte b = 1#8) ∧ (latchByte b = 1#8 ↔ b.syncSeen = true) := by
  rw [latchByte_eq_ite]
  cases b.syncSeen <;> decide

/-- Settles O32: the latch is clear after POLL and at reset, and POLL answers its bit. -/
theorem pollCoalescesPulses : Obligations.PollCoalescesPulses := by
  intro ws s₀ s hstart hpoll hrun
  have hclear : s₀.block.syncSeen = false := by
    obtain ⟨u, hu⟩ | ⟨cfg, rfl⟩ := hstart
    · rw [acceptWord_pollWord, exec_poll] at hu
      cases hu
      rfl
    · rfl
  obtain ⟨hbit, hone⟩ := latchByte_cases s.block
  exact ⟨_, _, (acceptWord_pollWord s).trans (exec_poll s), rfl, hbit,
    hone.trans (syncSeen_iff_pulseFired hclear hpoll hrun)⟩

/-! ### What ACCUM remembers -/

theorem eq_sweepGrids_of_blockExec_sweep {cfg : Config} {b c : Block} {r : Response}
    (h : blockExec cfg .sweep b = .ok (r, c)) : c = sweepGrids b := by
  simp only [blockExec, blockSweep] at h
  split at h
  · cases h; rfl
  · cases h

theorem eq_sweep_of_decode_sweepWord {ph : Phase} {hasSweep : Bool} {i : Instr}
    (h : decode ph hasSweep sweepWord = .ok i) : i = .sweep := by
  cases hasSweep with
  | true => rw [decode_sweepWord_present] at h; cases h; rfl
  | false => rw [decode_sweepWord_absent] at h; cases h

/-- A SWEEP that leaves a cell of ACCUM non-zero leaves ACTIVE non-zero there. -/
theorem active_ne_zero_of_blockExec_sweep {cfg : Config} {b c : Block} {r : Response}
    (h : blockExec cfg .sweep b = .ok (r, c)) {a : BitVec 11} (hacc : memRead .accum a c ≠ 0#8) :
    memRead .active a c ≠ 0#8 := by
  obtain rfl := eq_sweepGrids_of_blockExec_sweep h
  rw [memRead_sweepGrids_active]
  exact fun hact => hacc (by rw [memRead_sweepGrids_accum, if_pos hact])

/-- A row that leaves a cell non-zero in ACCUM and 0 in ACTIVE found ACCUM non-zero there: a NOTE_ON, the only one to write a
non-zero byte, leaves both so. -/
theorem accum_ne_zero_of_silent {cfg : Config} {i : Instr} {b c : Block} {r : Response}
    (h : blockExec cfg i b = .ok (r, c)) {a : BitVec 11} (hacc : memRead .accum a c ≠ 0#8)
    (hact : memRead .active a c = 0#8) : memRead .accum a b ≠ 0#8 := by
  obtain ⟨vel, -, rfl⟩ | ⟨-, rfl⟩ | hsame := memRead_blockExec_cases h
  · obtain ⟨x, hvel, hread⟩ | ⟨x, hread⟩ | hsame := memRead_completeMessage_cases vel b
    · rw [hread] at hacc hact
      split at hact
      · exact absurd hact (cell_ne_zero vel hvel)
      · rwa [if_neg ‹_›] at hacc
    · simpa [hread] using hacc
    · rwa [← hsame .accum a]
  · rw [memRead_sweepGrids_accum] at hacc
    split at hacc
    · exact absurd rfl hacc
    · exact hacc
  · rwa [← hsame .accum a]

/-- R45's history of a cell: at some point of the run ACTIVE was not 0 there, nor was it at any SWEEP since. -/
def soundedUnswept (s₀ : State) (a : BitVec 11) (ws : List Word) : Prop :=
  ∃ pre post m, ws = pre ++ post ∧ runWords pre s₀ = .next m ∧ memRead .active a m.block ≠ 0#8 ∧
    ∀ mid rest u, post = mid ++ sweepWord :: rest → runWords (pre ++ mid) s₀ = .next u → memRead .active a u.block ≠ 0#8

theorem soundedUnswept_of_active {s₀ s : State} {a : BitVec 11} {ws : List Word} (h : runWords ws s₀ = .next s)
    (hact : memRead .active a s.block ≠ 0#8) : soundedUnswept s₀ a ws :=
  ⟨ws, [], s, (List.append_nil ws).symm, h, hact, fun mid rest _ hnil => by simp at hnil⟩

/-- A further word that is no SWEEP adds nothing to check. -/
theorem soundedUnswept_snoc {s₀ : State} {a : BitVec 11} {ws : List Word} {w : Word} (hw : w ≠ sweepWord)
    (h : soundedUnswept s₀ a ws) : soundedUnswept s₀ a (ws ++ [w]) := by
  obtain ⟨pre, post, m, rfl, hm, hact, hsweeps⟩ := h
  refine ⟨pre, post ++ [w], m, List.append_assoc pre post [w], hm, hact, fun mid rest u hsplit hu => ?_⟩
  obtain ⟨-, rfl⟩ | ⟨rest', rfl⟩ := append_singleton_eq_append_cons hsplit
  · exact absurd rfl hw
  · exact hsweeps mid rest' u rfl hu

/-- Settles O43, by induction over the run: a cell still sounding is its own witness; a silent one was in ACCUM before the last
word, which then was no SWEEP. -/
theorem accumRemembersASoundingNote : Obligations.AccumRemembersASoundingNote := by
  intro cfg ws s a hrun
  refine runWords_induction (P := fun ws s => memRead .accum a s.block ≠ 0#8 → soundedUnswept (State.resetWith cfg) a ws)
    (by simp) ?_ hrun
  intro ws w u t hu ih haccept hacc
  by_cases hact : memRead .active a t.block = 0#8
  · obtain ⟨i, r, c, hdec, -, hblock, rfl⟩ := acceptWord_blockExec haccept
    refine soundedUnswept_snoc (fun hsw => ?_) (ih (accum_ne_zero_of_silent hblock hacc hact))
    obtain rfl := eq_sweep_of_decode_sweepWord (hsw ▸ hdec)
    exact active_ne_zero_of_blockExec_sweep hblock hacc hact
  · exact soundedUnswept_of_active (runWords_snoc_of_next hu haccept) hact

end Sys2Proof.Machine
end

section
/-! PROOFS. System bytes may stand anywhere in a stream (R118, R184): the run without them ends in a block that differs in the
divider and the latch only. -/

namespace Sys2Proof.Machine

/-! ### System bytes between the bytes of a message -/

/-- `b` with the counters and the latch of `d`: C1, C2 and SYNC_SEEN. -/
def withDividerOf (d b : Block) : Block :=
  { b with c1 := d.c1, c2 := d.c2, syncSeen := d.syncSeen }

theorem withDividerOf_self (b : Block) : withDividerOf b b = b := rfl

theorem sameDecoder_withDividerOf (d b : Block) : sameDecoder (withDividerOf d b) b := ⟨rfl, rfl, rfl, rfl⟩

theorem sameGrids_withDividerOf (d b : Block) : sameGrids (withDividerOf d b) b := by
  rintro (_ | _) a
  · rfl
  · rfl

theorem noteTableApply_withDividerOf (e : VoiceEvent) (d b : Block) :
    noteTableApply e (withDividerOf d b) = withDividerOf d (noteTableApply e b) := by
  unfold noteTableApply
  split
  · rfl
  · rfl
  · rfl

theorem completeMessage_withDividerOf (vel : BitVec 7) (d b : Block) :
    completeMessage vel (withDividerOf d b) = (completeMessage vel b).map id (withDividerOf d) := by
  by_cases hin : 1 ≤ b.chan.toNat ∧ b.chan.toNat ≤ 16 ∧ b.d1.toNat ≤ 127
  · rw [completeMessage_of_inRange hin, completeMessage_of_inRange (b := withDividerOf d b) hin]
    exact congrArg (Prod.mk _) (noteTableApply_withDividerOf _ d (awaitFirst b))
  · rw [completeMessage_of_not_inRange hin, completeMessage_of_not_inRange (b := withDividerOf d b) hin]
    rfl

theorem eq_withDividerOf_clockStep (d : Subdiv) (q : Bool) (b : Block) :
    b = withDividerOf b (latchSync q (clockStep d b).2) := by
  obtain ⟨-, -, h⟩ | ⟨-, -, h⟩ | ⟨-, h⟩ := clockStep_cases d b
  · rw [h]; rfl
  · rw [h]; rfl
  · rw [h]; rfl

theorem not_isSystemWord_data1 (d : BitVec 7) : isSystemWord (encode (.data1 d)) = false :=
  not_isSystemWord_data2 d

/-- A system byte writes the counters and the latch at most (R117, R184). -/
theorem eq_withDividerOf_of_isSystemWord {cfg : Config} {i : Instr} {b c : Block} {r : Response}
    (hi : isSystemWord (encode i) = true) (h : blockExec cfg i b = .ok (r, c)) : b = withDividerOf b c := by
  obtain ⟨x, -, hhi, hx, -⟩ | ⟨d, rfl, -⟩ | ⟨vel, rfl, -⟩ | ⟨-, rfl⟩ | ⟨-, rfl⟩ | ⟨rfl, -⟩ | rfl := blockExec_writes h
  · rw [hx, isSystemWord, byteWord_toNat, decide_eq_true_eq] at hi
    omega
  · simp [not_isSystemWord_data1] at hi
  · simp [not_isSystemWord_data2] at hi
  · exact eq_withDividerOf_clockStep _ _ b
  · rfl
  · cases hi
  · rfl

/-- A row other than the clock byte answers whatever the divider and the latch are, and reads them into no register and no
cell: the next block is the same but for the divider and the latch. -/
theorem blockExec_withDividerOf {cfg : Config} {i : Instr} {b c : Block} {r : Response} (hi : i ≠ .clock)
    (h : blockExec cfg i b = .ok (r, c)) (d : Block) :
    ∃ r' d', blockExec cfg i (withDividerOf d b) = .ok (r', withDividerOf d' c) := by
  cases i with
  | clock => exact absurd rfl hi
  | data1 x =>
    simp only [blockExec, blockData1] at h
    split at h
    next hph => cases h; exact ⟨_, d, if_pos hph⟩
    next => cases h
  | data2 vel =>
    simp only [blockExec, blockData2] at h
    split at h
    next hph =>
      refine ⟨(completeMessage vel b).1, d, (if_pos hph).trans ?_⟩
      rw [completeMessage_withDividerOf, Except.ok.inj h]
      rfl
    next => cases h
  | sweep =>
    simp only [blockExec, blockSweep] at h
    split at h
    next hsw => cases h; exact ⟨_, d, if_pos hsw⟩
    next => cases h
  | poll => cases h; exact ⟨_, clearSync d, rfl⟩
  | _ => cases h; exact ⟨_, d, rfl⟩

theorem runBlock_cons_ok {cfg : Config} {w : Word} {ws : List Word} {b d : Block} {rs : List Response}
    (h : runBlock cfg (w :: ws) b = .ok (rs, d)) :
    ∃ r c rs', blockStep cfg w b = .ok (r, c) ∧ runBlock cfg ws c = .ok (rs', d) := by
  simp only [runBlock] at h
  split at h
  · cases h
  · split at h
    · cases h
    · cases h
      exact ⟨_, _, _, ‹_›, ‹_›⟩

theorem runBlock_cons_of_ok {cfg : Config} {w : Word} {ws : List Word} {b c d : Block} {r : Response} {rs : List Response}
    (hw : blockStep cfg w b = .ok (r, c)) (hws : runBlock cfg ws c = .ok (rs, d)) :
    runBlock cfg (w :: ws) b = .ok (r :: rs, d) := by
  simp only [runBlock, hw, hws]

/-- The run without its system bytes, by induction on the words: it answers too, and ends in a block that differs in the divider
and the latch only. -/
theorem runBlock_filter_withDividerOf {cfg : Config} {ws : List Word} {b c : Block} {rs : List Response}
    (h : runBlock cfg ws b = .ok (rs, c)) (d : Block) :
    ∃ rs' d', runBlock cfg (ws.filter fun w => !isSystemWord w) (withDividerOf d b) = .ok (rs', withDividerOf d' c) := by
  induction ws generalizing b rs d with
  | nil => cases h; exact ⟨[], d, rfl⟩
  | cons w ws ih =>
    obtain ⟨r, m, rs', hstep, hrun⟩ := runBlock_cons_ok h
    obtain ⟨i, hdec, hexec⟩ := blockStep_ok hstep
    have henc := encode_of_decode_eq_ok hdec
    cases hw : isSystemWord w with
    | true =>
      rw [List.filter_cons_of_neg (by simp [hw]), eq_withDividerOf_of_isSystemWord (henc ▸ hw) hexec]
      exact ih hrun d
    | false =>
      obtain ⟨q, d', hexec'⟩ := blockExec_withDividerOf (by rintro rfl; subst henc; cases hw) hexec d
      obtain ⟨qs, d'', hrun'⟩ := ih hrun d'
      have hstep' : blockStep cfg w (withDividerOf d b) = .ok (q, withDividerOf d' m) := by
        rw [← hexec', blockStep, show (withDividerOf d b).phase = b.phase from rfl, hdec]
      rw [List.filter_cons_of_pos (by simp [hw])]
      exact ⟨q :: qs, d'', runBlock_cons_of_ok hstep' hrun'⟩

/-- Settles O26: the two runs start with the same divider and end in blocks that differ in it only. -/
theorem systemBytesDoNotDisturbMessages : Obligations.SystemBytesDoNotDisturbMessages := by
  intro ws s t hrun
  obtain ⟨rs, c, hblock, -, rfl⟩ := runWords_next hrun
  obtain ⟨rs', d, hfilter⟩ := runBlock_filter_withDividerOf hblock s.block
  rw [withDividerOf_self] at hfilter
  exact ⟨_, runWords_of_runBlock hfilter, sameDecoder_withDividerOf d c, sameGrids_withDividerOf d c⟩

end Sys2Proof.Machine
end
